-- ==== Sys2Proof/Word.lean ====
section
/-! DEFINITION. The word and byte types of XXTEA-CORE (00_scope.md R6 to R8): a word is 32 bits, a byte 8 bits, every value
is unsigned, and `+`, `-`, `<<<`, `>>>`, `^^^`, `&&&` on `BitVec` are exactly R8's operations modulo 2^32 with logical shifts. -/

namespace Sys2Proof

/-- "Word: a 32-bit unsigned integer, the cipher's native processing unit" (R6, `u32` of R8). -/
abbrev Word := BitVec 32

/-- A byte is 8 bits (R6, `u8` of R8). -/
abbrev Byte := BitVec 8

end Sys2Proof
end

