-- ==== Sys2Proof/Config.lean ====
section
/-! DEFINITION. What an implementation fixes, and the free values. The capacity WMAX is NOT here: it is the State field
`wmax`, so that every statement over all states is a statement over every capacity (log 3). -/

namespace Sys2Proof

/-- The free draw of 70_reset_and_hazards.md R241 and 93_implementation_defined.md I1: `Config.drawByte n off` is what the byte
of the buffer at host offset `off` holds after hardware reset number `n`, until something writes it. No body: no proof can
know its value (log 1). -/
opaque Config.drawByte : Nat → Nat → Byte

/-- The platform parameter BASE (20_memory.md R60, I8): where the block sits in the system's address map. No rule reads it and
no definition of the model uses it; every offset is block-relative (log 4). -/
opaque Config.base : Nat

/-- The reference configuration's capacity, `WMAX = 256` (00_scope.md R5). -/
def Config.referenceWmax : Nat := 256

/-- The bounds `2 <= WMAX <= 16383` of 00_scope.md R5. -/
def Config.minWmax : Nat := 2
/-- See `Config.minWmax`: with this bound every buffer window stays inside its 64 KiB slot. -/
def Config.maxWmax : Nat := 16383

/-- The RO-constant ID (10_state.md R23). -/
def Config.idValue : Word := 0x58544541#32

end Sys2Proof
end

