-- ==== Sys2Proof/Syntax.lean ====
section
/-! DEFINITION. The commands of XXTEA-CORE: one constructor for each row of spec/opcode_table.json. No command has an operand
field or an immediate (30_encoding.md R92), so no constructor has an argument. -/

namespace Sys2Proof

/-- The eleven commands (30_encoding.md R93, R97). The suffix `.L` of the spec is the letter `L` here. -/
inductive Instr where
  /-- NOP, word 0x00 (R190). -/
  | nop
  /-- PACK, word 0x01 (R113). -/
  | pack
  /-- PACK.L, word 0x11 (R114). -/
  | packL
  /-- UNPACK, word 0x02 (R115). -/
  | unpack
  /-- UNPACK.L, word 0x12 (R116). -/
  | unpackL
  /-- KEYPACK, word 0x03 (R117). -/
  | keypack
  /-- ENCR, word 0x04 (R148). -/
  | encr
  /-- DECR, word 0x05 (R149). -/
  | decr
  /-- ENCRYPT, word 0x06 (R170). -/
  | encrypt
  /-- DECRYPT, word 0x07 (R172). -/
  | decrypt
  /-- SRST, word 0x0F (R191). -/
  | srst
deriving DecidableEq, Repr

end Sys2Proof
end

