-- ==== Sys2Proof/WellFormed.lean ====
section
/-! DEFINITION. What a well-formed command word is (30_encoding.md R91, R93, R94), field by field, and the bound on WMAX
(00_scope.md R5). A command has no operand, so every `Instr` is well-formed; the checks are on the fields of a command word. -/

namespace Sys2Proof

/-- The fields of format CMDW (R91): OP in bits 3:0, L in bit 4, RSV in bits 31:5. -/
structure CmdFields where
  op  : BitVec 4
  l   : Bool
  rsv : BitVec 27
deriving DecidableEq, Repr

/-- R91, R94: the reserved bits 31:5 "must be 0". -/
def CmdFields.rsvOk (f : CmdFields) : Bool := f.rsv == 0#27

/-- R93, R95: the operations 0x8 to 0xE are illegal, whatever L is. -/
def CmdFields.opOk (f : CmdFields) : Bool := decide (f.op.toNat ≤ 7) || f.op == 0xF#4

/-- R93: L = 1 is legal for PACK (0x1) and UNPACK (0x2) only. -/
def CmdFields.lOk (f : CmdFields) : Bool := !f.l || f.op == 0x1#4 || f.op == 0x2#4

/-- The legal command words (R93, R94): all three checks together. -/
def CmdFields.wellFormed (f : CmdFields) : Bool := f.rsvOk && f.opOk && f.lOk

/-- No command has an operand field (R92), so no constructor can be ill-formed; the match is total so that a new constructor
could not slip past. -/
def Instr.wellFormed : Instr → Bool
  | .nop => true
  | .pack => true
  | .packL => true
  | .unpack => true
  | .unpackL => true
  | .keypack => true
  | .encr => true
  | .decr => true
  | .encrypt => true
  | .decrypt => true
  | .srst => true

/-- The constraint on the parameter WMAX (00_scope.md R5). -/
def Config.wmaxOk (wmax : Nat) : Bool := decide (Config.minWmax ≤ wmax) && decide (wmax ≤ Config.maxWmax)

end Sys2Proof
end

