-- ==== Sys2Proof/Decode.lean ====
section
/-! DEFINITION. The decoder of command words (30_encoding.md R91 to R96), total, rejecting by name, and after it the encoder.
An illegal word is rejected here; that the machine then completes with ILLEGAL_CMD is the engine's step (R94, R205). -/

namespace Sys2Proof

/-- Why a command word is illegal (R94). -/
inductive DecodeError where
  /-- `v[31:5] ≠ 0` (R94). -/
  | reservedBits
  /-- OP is 0x8 to 0xE (R93, R95). -/
  | reservedOp
  /-- L = 1 with an operation that has no `.L` form (R93, R94). -/
  | noLengthForm
  /-- The bytes given are not the four bytes of one command word (R90). -/
  | notOneWord
deriving DecidableEq, Repr

/-- The fields of a command word (R91). -/
def CmdFields.ofWord (v : Word) : CmdFields :=
  { op := v.extractLsb' 0 4, l := v.getLsbD 4, rsv := v.extractLsb' 5 27 }

/-- The opcode map of R93 with L = 0. -/
def decodeOp (op : BitVec 4) : Except DecodeError Instr :=
  match op.toNat with
  | 0x0 => .ok .nop
  | 0x1 => .ok .pack
  | 0x2 => .ok .unpack
  | 0x3 => .ok .keypack
  | 0x4 => .ok .encr
  | 0x5 => .ok .decr
  | 0x6 => .ok .encrypt
  | 0x7 => .ok .decrypt
  | 0xF => .ok .srst
  | _ => .error .reservedOp

/-- The opcode map of R93 with L = 1: only PACK.L and UNPACK.L exist. -/
def decodeOpL (op : BitVec 4) : Except DecodeError Instr :=
  match op.toNat with
  | 0x1 => .ok .packL
  | 0x2 => .ok .unpackL
  | 0x0 | 0x3 | 0x4 | 0x5 | 0x6 | 0x7 | 0xF => .error .noLengthForm
  | _ => .error .reservedOp

/-- Decode the fields of a command word (R93, R94). -/
def decodeFields (f : CmdFields) : Except DecodeError Instr :=
  if f.rsv ≠ 0#27 then .error .reservedBits
  else if f.l then decodeOpL f.op
  else decodeOp f.op

/-- Decode a command word (R93, R94). "No mode bit changes decoding" (R96): the word is the only argument. -/
def decode (v : Word) : Except DecodeError Instr := decodeFields (CmdFields.ofWord v)

/-- Decode the bytes of a command word, least significant first (the host port is little-endian, 20_memory.md R62). A command
is exactly one 32-bit word (R90). -/
def decodeBytes : List Byte → Except DecodeError Instr
  | [b0, b1, b2, b3] => decode (b3 ++ b2 ++ b1 ++ b0)
  | _ => .error .notOneWord

/-- The fields of each command, read from R93's table. -/
def Instr.fields : Instr → CmdFields
  | .nop     => { op := 0x0#4, l := false, rsv := 0#27 }
  | .pack    => { op := 0x1#4, l := false, rsv := 0#27 }
  | .packL   => { op := 0x1#4, l := true,  rsv := 0#27 }
  | .unpack  => { op := 0x2#4, l := false, rsv := 0#27 }
  | .unpackL => { op := 0x2#4, l := true,  rsv := 0#27 }
  | .keypack => { op := 0x3#4, l := false, rsv := 0#27 }
  | .encr    => { op := 0x4#4, l := false, rsv := 0#27 }
  | .decr    => { op := 0x5#4, l := false, rsv := 0#27 }
  | .encrypt => { op := 0x6#4, l := false, rsv := 0#27 }
  | .decrypt => { op := 0x7#4, l := false, rsv := 0#27 }
  | .srst    => { op := 0xF#4, l := false, rsv := 0#27 }

/-- The word of the fields, most significant first: RSV, L, OP (R91). -/
def CmdFields.toWord (f : CmdFields) : Word := f.rsv ++ BitVec.ofBool f.l ++ f.op

/-- The command word of a command: `enc(m)` of R99. -/
def encode (i : Instr) : Word := i.fields.toWord

/-- The instruction the decoder reads from a table row's word: the low `nbits` bits of `w`, every bit above them 0. The bytes
are laid out as the host port stores a word, least significant first (R62, R90), and given to the decoder. -/
def decodeTableWord (nbits w : Nat) : Option Instr :=
  let v := w % 2 ^ nbits
  if v < 2 ^ 32 then
    match decodeBytes [BitVec.ofNat 8 v, BitVec.ofNat 8 (v / 2 ^ 8), BitVec.ofNat 8 (v / 2 ^ 16), BitVec.ofNat 8 (v / 2 ^ 24)] with
    | .ok i => some i
    | .error _ => none
  else none

end Sys2Proof
end

