-- ==== Sys2Proof/Machine/State.lean ====
section
/-! DEFINITION. The state of XXTEA-CORE as plain data (10_state.md), the port accesses the outside world makes, the reasons a
step can stop, and the state after hardware reset (10_state.md R46, 70_reset_and_hazards.md R240). -/

namespace Sys2Proof.Machine

/-- Result codes of a completed command (60_exceptions.md R201 to R205); the number of each is `ErrorCode.code`. -/
inductive ErrorCode where
  /-- The command completed its whole pseudocode (R201). -/
  | ok
  /-- An empty input (R202). -/
  | invalidInput
  /-- The embedded-length check failed (R203). -/
  | corruptData
  /-- More than WMAX words would be needed (R204). -/
  | capacity
  /-- The command word is illegal (R205). -/
  | illegalCmd
deriving DecidableEq, Repr

/-- The four buffers (10_state.md R37 to R40). -/
inductive Buf where
  | kbuf | wbuf | ibuf | obuf
deriving DecidableEq, Repr

/-- The registers the host port reaches (10_state.md R22). -/
inductive Reg where
  | id | cfg | cmd | status | irqen | len | wcnt | outlen | klen | rounds | key0 | key1 | key2 | key3
deriving DecidableEq, Repr

/-- Access sizes of the host port: 1, 2 or 4 bytes (20_memory.md R61). -/
inductive AccessSize where
  | byte | half | word
deriving DecidableEq, Repr

/-- The direction of a host access (20_memory.md R69 names it in a bus error). -/
inductive Dir where
  | read | write
deriving DecidableEq, Repr

/-- What the host asks of the port. Offsets are 18 bits wide (R60), data 32 bits (R61). -/
inductive HostOp where
  /-- `MemRead(off, size)` (R66). -/
  | read (off : BitVec 18) (size : AccessSize)
  /-- `MemWrite(off, size, v)` (R67). -/
  | write (off : BitVec 18) (size : AccessSize) (v : Word)
  /-- The pseudo-instruction WAIT: "repeat R32 0x00C until bit 0 of the value is 0" (30_encoding.md R99; log 9). -/
  | wait
deriving DecidableEq, Repr

/-- What the platform does to the reset input RST_N (70_reset_and_hazards.md R240, R242). -/
inductive PinEvent where
  /-- RST_N goes low. -/
  | assertReset
  /-- RST_N goes high. -/
  | releaseReset
deriving DecidableEq, Repr

/-- The agents that can take a step (10_state.md R20; the platform drives RST_N, R240). -/
inductive Agent where
  | host | engine | platform
deriving DecidableEq, Repr

/-- The Key Word Array `key[0..3]`, registers KEY0..KEY3 (10_state.md R36). -/
structure KeyWords where
  k0 : Word
  k1 : Word
  k2 : Word
  k3 : Word
deriving DecidableEq, Repr

/-- The buffers' bytes, keyed by host-port offset (20_memory.md R63): the bytes written since the last hardware reset, in
strictly rising order of offset. An offset that is not listed holds NO value here (`Memory.get?` answers `none`), so no entry
can equal what an unlisted offset holds; the free draw such a byte reads as comes in at `State.cellAt` (log 1, log 12). -/
abbrev Memory := List Host.Cell

/-- The state of the block, of its port and of its reset pin. -/
@[ext]
structure State where
  /-- The parameter WMAX (00_scope.md R5), which CFG reads (10_state.md R24). No step changes it (log 3). -/
  wmax : Nat
  /-- CMDLATCH (10_state.md R41). -/
  cmdLatch : Word
  /-- STATUS.BUSY (R26, R27). -/
  busy : Bool
  /-- STATUS.DONE (R26, R28). -/
  done : Bool
  /-- STATUS.ERR (R26, R29). -/
  err : BitVec 4
  /-- IRQEN.IE (R30). -/
  ie : Bool
  /-- LEN (R31). -/
  len : Word
  /-- WCNT (R32). -/
  wcnt : Word
  /-- OUTLEN (R33). -/
  outlen : Word
  /-- KLEN[4:0] (R34); bits 31:5 read 0 and are not stored. -/
  klen : BitVec 5
  /-- ROUNDS (R35). -/
  rounds : Word
  /-- KEY0..KEY3 (R36). -/
  key : KeyWords
  /-- KBUF, WBUF, IBUF, OBUF (R37 to R40) at their host-port offsets. -/
  mem : Memory
  /-- The model's own: which free draw the unwritten bytes take; a hardware reset advances it (log 2). -/
  draw : Nat
  /-- RST_N is asserted (70_reset_and_hazards.md R240). -/
  inReset : Bool
  /-- The reset-pin events to come (log 8). -/
  pins : List PinEvent
  /-- The host's accesses to come, in issue order; a held access stays at the head (20_memory.md R70, R75; log 6). -/
  host : List HostOp
  /-- The data returned for the reads performed, newest first (20_memory.md R66; log 6). -/
  replies : List Word
  /-- The schedule: which agent moves at the next steps, when it can (60_exceptions.md R212, I2; log 5). -/
  turns : List Agent
deriving DecidableEq, Repr

/-- Why a step stops. -/
inductive Fault where
  /-- `BusError(off, size, dir)` (20_memory.md R69): raised by the host's move on an illegal access, as a fault of the host
  agent (60_exceptions.md R207, I14). Safe: the model ends the run where the host could go on; the block's state is the one
  before the step (log 7). -/
  | busError (off : BitVec 18) (size : AccessSize) (dir : Dir)
deriving DecidableEq, Repr

/-- Why a step has no meaning. -/
inductive Refusal where
  /-- An instruction without a meaning, by its mnemonic: raised only by an arm of `exec`. Safe. No arm raises it now. -/
  | notModelled (mnemonic : String)
deriving DecidableEq, Repr

/-- The state right after hardware reset (10_state.md R46, 70_reset_and_hazards.md R240, R241): every register 0, every buffer
byte an arbitrary draw (none is listed), RST_N released, and for WMAX the reference configuration of 00_scope.md R5 (log 3). The
queues are empty and the schedule says nothing (DESIGN CHOICE, log 5, log 6, log 8). -/
def State.reset : State where
  wmax := Config.referenceWmax
  cmdLatch := 0#32
  busy := false
  done := false
  err := 0#4
  ie := false
  len := 0#32
  wcnt := 0#32
  outlen := 0#32
  klen := 0#5
  rounds := 0#32
  key := { k0 := 0#32, k1 := 0#32, k2 := 0#32, k3 := 0#32 }
  mem := []
  draw := 0
  inReset := false
  pins := []
  host := []
  replies := []
  turns := []

end Sys2Proof.Machine
end

