-- ==== Sys2Proof/Machine/Memory.lean ====
section
/-! DEFINITION. The list of bytes behind the buffers: lookup, update and the canonical form. -/

namespace Sys2Proof.Machine

/-- The byte listed at offset `k`, or none. -/
def Memory.get? : Memory → Nat → Option Byte
  | [], _ => none
  | c :: m, k => if c.1 = k then some c.2 else Memory.get? m k

/-- List the byte `v` at offset `k`, in the place that keeps the offsets strictly rising. -/
def Memory.set : Memory → Nat → Byte → Memory
  | [], k, v => [(k, v)]
  | c :: m, k, v =>
    if k < c.1 then (k, v) :: c :: m
    else if k = c.1 then (k, v) :: m
    else c :: Memory.set m k v

/-- Every offset of the list is above `k`. -/
def Memory.above (k : Nat) : Memory → Bool
  | [] => true
  | c :: _ => decide (k < c.1)

/-- The canonical form: offsets strictly rising. With it, one content of the list is one list. -/
def Memory.wf : Memory → Bool
  | [] => true
  | c :: m => Memory.above c.1 m && Memory.wf m

end Sys2Proof.Machine
end

