-- ==== Sys2Proof/Machine/Ops.lean ====
section
/-! DEFINITION. The named operations over buffers and registers: bytes and words of a buffer, the issue and the completion of
a command, `raise` (how every command error is taken), the clearing of DONE (the one thing that ends a pending completion),
soft and hardware reset, and the fetch of the command word. -/

namespace Sys2Proof.Machine

/-! ### Bytes of a word (00_scope.md R7, 20_memory.md R62) -/

/-- Byte `j` of a word: bits `8j+7 : 8j` (R7). -/
def byteOf (w : Word) (j : Nat) : Byte := (w >>> (8 * j)).setWidth 8

/-- The word whose byte `j` is the `j`-th argument: `zext_32` of each byte shifted left by `8j`, OR-ed together (R62, R110). -/
def leWord (b0 b1 b2 b3 : Byte) : Word :=
  b0.setWidth 32 ||| (b1.setWidth 32 <<< 8) ||| (b2.setWidth 32 <<< 16) ||| (b3.setWidth 32 <<< 24)

/-- `ceil4(x) = (x + 3) / 4` (00_scope.md R9). -/
def ceil4 (x : Nat) : Nat := (x + 3) / 4

/-! ### The buffers (20_memory.md R63, R73) -/

/-- The host-port offset of a buffer's first byte (R63). -/
def Buf.base : Buf → Nat
  | .kbuf => 0x00040
  | .wbuf => 0x10000
  | .ibuf => 0x20000
  | .obuf => 0x30000

/-- How many bytes a buffer has, for a capacity of `wmax` words (R63; 00_scope.md R5). -/
def Buf.extent (wmax : Nat) : Buf → Nat
  | .kbuf => 16
  | .wbuf => 4 * wmax
  | .ibuf => 4 * wmax
  | .obuf => 4 * wmax + 1

/-- The byte at host-port offset `a`: the byte written there since the last hardware reset, or the free draw (R241; log 1). -/
def State.cellAt (s : State) (a : Nat) : Byte := (s.mem.get? a).getD (Config.drawByte s.draw a)

/-- Write the byte at host-port offset `a`. -/
def State.setCell (a : Nat) (v : Byte) (s : State) : State := { s with mem := s.mem.set a v }

/-- Byte `i` of a buffer: `IBUF[i]`, `OBUF[i]`, `KBUF[i]` of 00_scope.md R10, and WBUF's byte view (R73). -/
def State.byteAt (s : State) (b : Buf) (i : Nat) : Byte := s.cellAt (b.base + i)

/-- Word `k` of WBUF, `WBUF[k]` of R10: its byte `j` is byte `4k + j` of the byte view (R73). -/
def State.wordAt (s : State) (k : Nat) : Word :=
  leWord (s.byteAt .wbuf (4 * k)) (s.byteAt .wbuf (4 * k + 1)) (s.byteAt .wbuf (4 * k + 2)) (s.byteAt .wbuf (4 * k + 3))

/-- The first `n` bytes of a buffer. -/
def State.bytes (s : State) (b : Buf) (n : Nat) : List Byte := (List.range n).map (s.byteAt b)

/-- The first `n` words of WBUF. -/
def State.words (s : State) (n : Nat) : List Word := (List.range n).map s.wordAt

/-- Write bytes at the offsets `a`, `a + 1`, … in order. -/
def State.storeCells (a : Nat) : List Byte → State → State
  | [], s => s
  | v :: vs, s => State.storeCells (a + 1) vs (s.setCell a v)

/-- The four bytes of each word, in the order of the byte view (R73). -/
def wordBytes (ws : List Word) : List Byte :=
  ws.flatMap fun w => [byteOf w 0, byteOf w 1, byteOf w 2, byteOf w 3]

/-- `WBUF[k] <- w[k]` for each word of the list, `k` from 0; words beyond it are untouched (R113, D36). -/
def State.storeWords (ws : List Word) (s : State) : State := s.storeCells Buf.wbuf.base (wordBytes ws)

/-- `OBUF[i] <- out[i]` for each byte of the list, `i` from 0; bytes beyond it are untouched (R115). -/
def State.storeOut (out : List Byte) (s : State) : State := s.storeCells Buf.obuf.base out

/-! ### Issue, completion, errors (60_exceptions.md R208 to R211) -/

/-- The number of a result code (60_exceptions.md R201 to R205). -/
def ErrorCode.code : ErrorCode → BitVec 4
  | .ok => 0#4
  | .invalidInput => 1#4
  | .corruptData => 2#4
  | .capacity => 3#4
  | .illegalCmd => 4#4

/-- Issue of the command word `v`, in one step: `CMDLATCH <- v; BUSY <- 1; DONE <- 0; ERR <- 0` (R211). -/
def State.issue (v : Word) (s : State) : State :=
  { s with cmdLatch := v, busy := true, done := false, err := 0#4 }

/-- Completion of a command: `ERR <- code; DONE <- 1; BUSY <- 0` (R210). -/
def State.complete (e : ErrorCode) (s : State) : State :=
  { s with err := e.code, done := true, busy := false }

/-- `raise E` (R208): taking a command error. `OUTLEN <- 0`, then the completion with E's code. There is no vector, no saved
state and no mode (R200): effects made by earlier lines of the same command stay in `s`. -/
def State.raise (e : ErrorCode) (s : State) : State :=
  State.complete e { s with outlen := 0#32 }

/-- What stands in the place of a return from exception: there is no return instruction (R200, R214), and the handler ends a
pending completion by writing 1 to STATUS bit 1. A STATUS write clears DONE exactly when its bit 1 is set (10_state.md R28);
every other bit is ignored (R43). -/
def State.writeStatus (v : Word) (s : State) : State :=
  { s with done := s.done && !v.getLsbD 1 }

/-- The command word the engine decodes: CMDLATCH (R41, R212). There is no program counter (R21). -/
def State.fetch (s : State) : Word := s.cmdLatch

/-! ### Reset (70_reset_and_hazards.md R240 to R243) -/

/-- Every register of 10_state.md R46 except the RO-constants takes its reset value; every buffer stays (43_control.md R191,
R243). -/
def State.resetRegs (s : State) : State :=
  { s with
    cmdLatch := 0#32, busy := false, done := false, err := 0#4, ie := false, len := 0#32, wcnt := 0#32,
    outlen := 0#32, klen := 0#5, rounds := 0#32,
    key := { k0 := 0#32, k1 := 0#32, k2 := 0#32, k3 := 0#32 } }

/-- Hardware reset: the registers as `resetRegs`, and every buffer byte a fresh free draw (R240 to R242). A command in flight
is abandoned without a completion (R242). -/
def State.hardwareReset (s : State) : State :=
  { s.resetRegs with mem := [], draw := s.draw + 1 }

end Sys2Proof.Machine
end

