-- ==== Sys2Proof/Machine/Control.lean ====
section
/-! DEFINITION. The control commands NOP and SRST (43_control.md R190, R191), and the completion of an illegal command word
(60_exceptions.md R205). -/

namespace Sys2Proof.Machine

/-- NOP (R190): nothing but the completion with ERR = 0; OUTLEN stays. -/
def execNop (s : State) : Host.Outcome State Fault Refusal := .next (s.complete .ok)

/-- SRST (R191): the registers take their reset values, every buffer stays; it does not complete by R210 and does not set
DONE. -/
def execSrst (s : State) : Host.Outcome State Fault Refusal := .next s.resetRegs

/-- The engine step on an illegal command word: ILLEGAL_CMD and no other effect than those of `raise` (R94, R205). -/
def illegalCommand (s : State) : Host.Outcome State Fault Refusal := .next (s.raise .illegalCmd)

end Sys2Proof.Machine
end

