-- ==== Sys2Proof/Machine/Operands.lean ====
section
/-! DEFINITION. The operand forms. Every operand of a command is implicit, a register or a buffer read whole (30_encoding.md
R92); this file has the read of each. The counts LEN, WCNT and KLEN are unsigned and compared as exact naturals (00_scope.md R9). -/

namespace Sys2Proof.Machine

/-- `IBUF[0 .. LEN-1]`, the operand of PACK, PACK.L, ENCRYPT and DECRYPT. -/
def State.inputBytes (s : State) : List Byte := s.bytes .ibuf s.len.toNat

/-- `KBUF[0 .. 15]`, of which KEYPACK, ENCRYPT and DECRYPT use the first KLEN. -/
def State.keyBytes (s : State) : List Byte := s.bytes .kbuf 16

/-- `WBUF[0 .. WCNT-1]`, the operand of UNPACK, UNPACK.L, ENCR and DECR. -/
def State.wordArray (s : State) : List Word := s.words s.wcnt.toNat

/-- The key word `key[i]`, `i` in 0..3 (10_state.md R36). -/
def KeyWords.at (k : KeyWords) (i : BitVec 2) : Word :=
  if i = 0#2 then k.k0 else if i = 1#2 then k.k1 else if i = 2#2 then k.k2 else k.k3

end Sys2Proof.Machine
end

