-- ==== Sys2Proof/Machine/Packing.lean ====
section
/-! DEFINITION. The word packing and unpacking engine (40_packing.md): the pure functions of R110 to R112, the shared steps over
the state, and the meanings of PACK, PACK.L, UNPACK, UNPACK.L and KEYPACK (R113 to R117). -/

namespace Sys2Proof.Machine

/-! ### Pure functions -/

/-- Word `k` of the packed bytes: the OR of each byte `src[4k + j]` shifted left by `8j`, a missing byte counting as zero
(R110). -/
def packWord (src : List Byte) (k : Nat) : Word :=
  leWord (src.getD (4 * k) 0#8) (src.getD (4 * k + 1) 0#8) (src.getD (4 * k + 2) 0#8) (src.getD (4 * k + 3) 0#8)

/-- `packWords(src, len, L)` with `len` the length of `src` (R110): `ceil4(len)` words, and with `L` the length word at index
`ceil4(len)`. -/
def packWords (src : List Byte) (l : Bool) : List Word :=
  (List.range (ceil4 src.length)).map (packWord src) ++ (if l then [BitVec.ofNat 32 src.length] else [])

/-- `keyWords(kb, klen)` (R111): exactly four words; bytes at positions `>= klen` count as zero. -/
def keyWords (kb : List Byte) (klen : Nat) : KeyWords :=
  let b := kb.take klen
  { k0 := packWord b 0, k1 := packWord b 1, k2 := packWord b 2, k3 := packWord b 3 }

/-- Byte `i` of the words: `(w[i >> 2] >> ((i & 3) * 8)) & 0xFF` (R112). -/
def unpackByte (w : List Word) (i : Nat) : Byte := byteOf (w.getD (i / 4) 0#32) (i % 4)

/-- The bytes `out[0 .. m]` of R112: the `m` bytes and the terminating zero. -/
def unpackOut (w : List Word) (m : Nat) : List Byte := (List.range m).map (unpackByte w) ++ [0#8]

/-- `unpackBytes(w, N, L)` with `N` the length of `w` (R112): the byte count `m` and `out[0 .. m]`, or none for CORRUPT. The
bound is `4 * N`, N counting the length word (90_conflicts.md C2). -/
def unpackBytes (w : List Word) (l : Bool) : Option (Nat × List Byte) :=
  if l then
    let m := (w.getD (w.length - 1) 0#32).toNat
    if m > 4 * w.length then none else some (m, unpackOut w m)
  else some (4 * w.length, unpackOut w (4 * w.length))

/-! ### Shared steps over the state -/

/-- `(w, N) <- packWords(IBUF, LEN, L); WBUF[0 .. N-1] <- w; WCNT <- N` (R113, R114, R170, R172). -/
def State.packInput (l : Bool) (s : State) : State :=
  let w := packWords s.inputBytes l
  { s.storeWords w with wcnt := BitVec.ofNat 32 w.length }

/-- `key <- keyWords(KBUF, KLEN); KEY0..KEY3 <- key` (R117, R170, R172). -/
def State.packKey (s : State) : State :=
  { s with key := keyWords s.keyBytes s.klen.toNat }

/-- `r <- unpackBytes(WBUF, WCNT, L)`, then CORRUPT_DATA, or `OBUF[0 .. m] <- out; OUTLEN <- m` and completion (R115, R116, R170,
R172). -/
def State.finishUnpack (l : Bool) (s : State) : State :=
  match unpackBytes s.wordArray l with
  | none => s.raise .corruptData
  | some (m, out) => State.complete .ok { s.storeOut out with outlen := BitVec.ofNat 32 m }

/-! ### Meanings -/

/-- PACK (R113). -/
def execPack (s : State) : Host.Outcome State Fault Refusal :=
  if ceil4 s.len.toNat + 0 > s.wmax then .next (s.raise .capacity)
  else .next ((s.packInput false).complete .ok)

/-- PACK.L (R114). -/
def execPackL (s : State) : Host.Outcome State Fault Refusal :=
  if ceil4 s.len.toNat + 1 > s.wmax then .next (s.raise .capacity)
  else .next ((s.packInput true).complete .ok)

/-- UNPACK (R115). -/
def execUnpack (s : State) : Host.Outcome State Fault Refusal :=
  if s.wcnt.toNat > s.wmax then .next (s.raise .capacity)
  else .next (s.finishUnpack false)

/-- UNPACK.L (R116). -/
def execUnpackL (s : State) : Host.Outcome State Fault Refusal :=
  if s.wcnt = 0#32 then .next (s.raise .invalidInput)
  else if s.wcnt.toNat > s.wmax then .next (s.raise .capacity)
  else .next (s.finishUnpack true)

/-- KEYPACK (R117). -/
def execKeypack (s : State) : Host.Outcome State Fault Refusal :=
  .next (s.packKey.complete .ok)

end Sys2Proof.Machine
end

