-- ==== Sys2Proof/Machine/Mixer.lean ====
section
/-! DEFINITION. The round mixer (41_round_transform.md): MX, the two transforms as pure functions in the loop form of R146 and
R147, and the meanings of ENCR and DECR (R148, R149). -/

namespace Sys2Proof.Machine

/-- `DELTA = 0x9e3779b9` (R140). -/
def DELTA : Word := 0x9e3779b9#32

/-- The round count `q = 6 + 52 / N` (R141), division truncated toward zero. -/
def roundCount (n : Nat) : Nat := 6 + 52 / n

/-- `e = (sum >> 2) & 3` (R142). -/
def roundE (sum : Word) : BitVec 2 := ((sum >>> 2) &&& 3#32).setWidth 2

/-- The key index `(p & 3) XOR e` (R144): only the two low bits of `p` are used. -/
def keyIndex (p : Nat) (e : BitVec 2) : BitVec 2 := BitVec.ofNat 2 p ^^^ e

/-- The mixing function (R143). -/
def mx (z y sum : Word) (e : BitVec 2) (p : Nat) (key : KeyWords) : Word :=
  (((z >>> 5) ^^^ (y <<< 2)) + ((y >>> 3) ^^^ (z <<< 4)))
    ^^^ ((sum ^^^ y) + (key.at (keyIndex p e) ^^^ z))

/-- `w[i]` of a word list. -/
def wordIn (w : List Word) (i : Nat) : Word := w.getD i 0#32

/-! ### Encryption (R146) -/

/-- `w[p] <- w[p] + MX(z, y, sum, e, p, key); z <- w[p]`: the words and the new `z`. -/
def encUpdate (key : KeyWords) (sum : Word) (w : List Word) (z y : Word) (p : Nat) : List Word × Word :=
  let x := wordIn w p + mx z y sum (roundE sum) p key
  (w.set p x, x)

/-- One round of R146 on the words and `z`: `p` from 0 up to `n - 1` with `y = w[p + 1]`, then the wrap-around step `p = n` with
`y = w[0]`. -/
def encRound (key : KeyWords) (n : Nat) (sum : Word) (a : List Word × Word) : List Word × Word :=
  let b := (List.range n).foldl (fun a p => encUpdate key sum a.1 a.2 (wordIn a.1 (p + 1)) p) a
  encUpdate key sum b.1 b.2 (wordIn b.1 0) n

/-- `repeat q times: sum <- sum + DELTA; …` (R146). -/
def encLoop (key : KeyWords) (n : Nat) : Nat → Word → List Word × Word → List Word × Word
  | 0, _, a => a
  | q + 1, sum, a => encLoop key n q (sum + DELTA) (encRound key n (sum + DELTA) a)

/-- `encRounds(w, N, key)` with `N` the length of `w` (R146); fewer than 2 words pass through (R145). -/
def encRounds (w : List Word) (key : KeyWords) : List Word :=
  if w.length < 2 then w
  else (encLoop key (w.length - 1) (roundCount w.length) 0#32 (w, wordIn w (w.length - 1))).1

/-! ### Decryption (R147) -/

/-- `w[p] <- w[p] - MX(z, y, sum, e, p, key); y <- w[p]`: the words and the new `y`. -/
def decUpdate (key : KeyWords) (sum : Word) (w : List Word) (z y : Word) (p : Nat) : List Word × Word :=
  let x := wordIn w p - mx z y sum (roundE sum) p key
  (w.set p x, x)

/-- `n` down to 1. -/
def downFrom (n : Nat) : List Nat := (List.range n).map (fun i => n - i)

/-- One round of R147 on the words and `y`: `p` from `n` down to 1 with `z = w[p - 1]`, then the wrap-around step `p = 0` with
`z = w[n]` read before the subtraction (90_conflicts.md C6). -/
def decRound (key : KeyWords) (n : Nat) (sum : Word) (a : List Word × Word) : List Word × Word :=
  let b := (downFrom n).foldl (fun a p => decUpdate key sum a.1 (wordIn a.1 (p - 1)) a.2 p) a
  decUpdate key sum b.1 (wordIn b.1 n) b.2 0

/-- `while sum != 0: …; sum <- sum - DELTA` (R147), with at most `fuel` turns. -/
def decLoop (key : KeyWords) (n : Nat) : Nat → Word → List Word × Word → List Word × Word
  | 0, _, a => a
  | fuel + 1, sum, a =>
    if sum = 0#32 then a else decLoop key n fuel (sum - DELTA) (decRound key n sum a)

/-- `decRounds(w, N, key)` with `N` the length of `w` (R147); fewer than 2 words pass through (R145). The loop's fuel is `q`,
because the loop "runs exactly q times" (R151; log 13). -/
def decRounds (w : List Word) (key : KeyWords) : List Word :=
  if w.length < 2 then w
  else
    let q := roundCount w.length
    (decLoop key (w.length - 1) q (BitVec.ofNat 32 q * DELTA) (w, wordIn w 0)).1

/-! ### Over the state -/

/-- The round step of R148, R149, R170 and R172, for either transform: with `N = WCNT = 1` the passthrough, `ROUNDS <- 0`; else the
transform over `WBUF[0 .. N-1]` under KEY0..KEY3, `ROUNDS <- 6 + 52 / N`. -/
def State.mixWords (rounds : List Word → KeyWords → List Word) (s : State) : State :=
  if s.wcnt = 1#32 then { s with rounds := 0#32 }
  else { s.storeWords (rounds s.wordArray s.key) with rounds := BitVec.ofNat 32 (roundCount s.wcnt.toNat) }

/-- ENCR (R148). -/
def execEncr (s : State) : Host.Outcome State Fault Refusal :=
  if s.wcnt = 0#32 then .next (s.raise .invalidInput)
  else if s.wcnt.toNat > s.wmax then .next (s.raise .capacity)
  else .next ((s.mixWords encRounds).complete .ok)

/-- DECR (R149). -/
def execDecr (s : State) : Host.Outcome State Fault Refusal :=
  if s.wcnt = 0#32 then .next (s.raise .invalidInput)
  else if s.wcnt.toNat > s.wmax then .next (s.raise .capacity)
  else .next ((s.mixWords decRounds).complete .ok)

end Sys2Proof.Machine
end

