-- ==== Sys2Proof/Machine/Facade.lean ====
section
/-! DEFINITION. The composite commands ENCRYPT and DECRYPT (42_facade.md R170 to R173): the steps of the packing engine and of the
round mixer in the source's order, each error check ending the command at once. -/

namespace Sys2Proof.Machine

/-- The steps of ENCRYPT after its checks, up to the unpack: pack with the length word, pack the key, encrypt (R170). There are
always at least 2 words. -/
def State.encryptSteps (s : State) : State := (s.packInput true).packKey.mixWords encRounds

/-- The steps of DECRYPT after its checks, up to the unpack: pack without a length word, pack the key, decrypt or pass a single
word through (R172). -/
def State.decryptSteps (s : State) : State := (s.packInput false).packKey.mixWords decRounds

/-- ENCRYPT (R170, R171). -/
def execEncrypt (s : State) : Host.Outcome State Fault Refusal :=
  if s.len = 0#32 then .next (s.raise .invalidInput)
  else if ceil4 s.len.toNat + 1 > s.wmax then .next (s.raise .capacity)
  else .next (s.encryptSteps.finishUnpack false)

/-- DECRYPT (R172, R173). On CORRUPT_DATA the steps done keep their effects on WBUF, WCNT, KEY0..3 and ROUNDS (D9). -/
def execDecrypt (s : State) : Host.Outcome State Fault Refusal :=
  if s.len = 0#32 then .next (s.raise .invalidInput)
  else if ceil4 s.len.toNat > s.wmax then .next (s.raise .capacity)
  else .next (s.decryptSteps.finishUnpack true)

end Sys2Proof.Machine
end

