-- ==== Sys2Proof/Machine/Dispatch.lean ====
section
/-! DEFINITION. The meaning of each command, one arm per constructor. -/

namespace Sys2Proof.Machine

def exec (i : Instr) (s : State) : Host.Outcome State Fault Refusal :=
  match i with
  | .nop => Sys2Proof.Machine.execNop s
  | .pack => Sys2Proof.Machine.execPack s
  | .packL => Sys2Proof.Machine.execPackL s
  | .unpack => Sys2Proof.Machine.execUnpack s
  | .unpackL => Sys2Proof.Machine.execUnpackL s
  | .keypack => Sys2Proof.Machine.execKeypack s
  | .encr => Sys2Proof.Machine.execEncr s
  | .decr => Sys2Proof.Machine.execDecr s
  | .encrypt => Sys2Proof.Machine.execEncrypt s
  | .decrypt => Sys2Proof.Machine.execDecrypt s
  | .srst => Sys2Proof.Machine.execSrst s

end Sys2Proof.Machine
end

