-- ==== Sys2Proof/Machine/Flags.lean ====
section
/-! DEFINITION. The flags: STATUS and IRQEN as words, and the interrupt output (10_state.md R26, R30, R44; 60_exceptions.md
R213). There are no arithmetic condition codes (R44). -/

namespace Sys2Proof.Machine

/-- A flag as a 32-bit value. -/
def flagWord (b : Bool) : Word := if b then 1#32 else 0#32

/-- The read value of STATUS: `zext_32(ERR << 4 | DONE << 1 | BUSY)`; reserved bits read 0 (R26). -/
def State.statusWord (s : State) : Word :=
  (s.err.setWidth 32 <<< 4) ||| (flagWord s.done <<< 1) ||| flagWord s.busy

/-- The read value of IRQEN: IE in bit 0, the rest 0 (R30). -/
def State.irqenWord (s : State) : Word := flagWord s.ie

/-- The interrupt output: `IRQ = STATUS.DONE AND IRQEN.IE`, level-sensitive (R213). -/
def State.irq (s : State) : Bool := s.done && s.ie

end Sys2Proof.Machine
end

