-- ==== Sys2Proof/Machine/HostPort.lean ====
section
/-! DEFINITION. The host port (20_memory.md): the address map, the legality of an access, `MemRead` and `MemWrite`, and which
accesses are held while BUSY = 1. -/

namespace Sys2Proof.Machine

/-- How many bytes an access moves (R61). -/
def AccessSize.bytes : AccessSize → Nat
  | .byte => 1
  | .half => 2
  | .word => 4

/-- The register at an offset, if the offset is one of the registers' (10_state.md R22, 20_memory.md R63). An offset inside a
register but not a multiple of 4 is none. -/
def regAt (off : Nat) : Option Reg :=
  match off with
  | 0x000 => some .id
  | 0x004 => some .cfg
  | 0x008 => some .cmd
  | 0x00C => some .status
  | 0x010 => some .irqen
  | 0x014 => some .len
  | 0x018 => some .wcnt
  | 0x01C => some .outlen
  | 0x020 => some .klen
  | 0x024 => some .rounds
  | 0x030 => some .key0
  | 0x034 => some .key1
  | 0x038 => some .key2
  | 0x03C => some .key3
  | _ => none

/-- Offset `off` lies in the legal range of buffer `b` (R63). -/
def Buf.holds (wmax : Nat) (b : Buf) (off : Nat) : Bool :=
  decide (b.base ≤ off) && decide (off < b.base + b.extent wmax)

/-- The buffer whose legal range an offset lies in, if any (R63). -/
def bufAt (wmax : Nat) (off : Nat) : Option Buf :=
  [Buf.kbuf, Buf.wbuf, Buf.ibuf, Buf.obuf].find? fun b => b.holds wmax off

/-- R65: the access is aligned to its size and its last byte lies inside the buffer. -/
def Buf.admits (wmax : Nat) (b : Buf) (off : Nat) (size : AccessSize) : Bool :=
  decide (off % size.bytes = 0) && decide (off + size.bytes ≤ b.base + b.extent wmax)

/-! ### Registers (10_state.md R23 to R36) -/

/-- The value a register reads as. CMD reads 0 (R25); reserved bits read 0 (R26, R30, R34). -/
def State.readReg (s : State) : Reg → Word
  | .id => Config.idValue
  | .cfg => BitVec.ofNat 32 (s.wmax % 2 ^ 16)
  | .cmd => 0#32
  | .status => s.statusWord
  | .irqen => s.irqenWord
  | .len => s.len
  | .wcnt => s.wcnt
  | .outlen => s.outlen
  | .klen => s.klen.setWidth 32
  | .rounds => s.rounds
  | .key0 => s.key.k0
  | .key1 => s.key.k1
  | .key2 => s.key.k2
  | .key3 => s.key.k3

/-- `min(v, 16)` as KLEN[4:0] (R34). -/
def clampKlen (v : Word) : BitVec 5 := BitVec.ofNat 5 (min v.toNat 16)

/-- The write effect of a register (R67): CMD issues, STATUS clears DONE on bit 1, KLEN clamps, IRQEN keeps bit 0, read-only
registers ignore the write (R43), the rest store the value. -/
def State.writeReg (v : Word) (r : Reg) (s : State) : State :=
  match r with
  | .id => s
  | .cfg => s
  | .cmd => s.issue v
  | .status => s.writeStatus v
  | .irqen => { s with ie := v.getLsbD 0 }
  | .len => { s with len := v }
  | .wcnt => { s with wcnt := v }
  | .outlen => s
  | .klen => { s with klen := clampKlen v }
  | .rounds => s
  | .key0 => { s with key := { s.key with k0 := v } }
  | .key1 => { s with key := { s.key with k1 := v } }
  | .key2 => { s with key := { s.key with k2 := v } }
  | .key3 => { s with key := { s.key with k3 := v } }

/-! ### Accesses (R66 to R69) -/

/-- The value of a legal buffer read: `sum over i < size of zext_32(byte(off+i)) << 8i` (R66). -/
def State.readBytes (s : State) (off : Nat) : AccessSize → Word
  | .byte => leWord (s.cellAt off) 0#8 0#8 0#8
  | .half => leWord (s.cellAt off) (s.cellAt (off + 1)) 0#8 0#8
  | .word => leWord (s.cellAt off) (s.cellAt (off + 1)) (s.cellAt (off + 2)) (s.cellAt (off + 3))

/-- The bytes a write of the given size moves, in offset order (R62, R67): bits of `v` above `8*size` are ignored. -/
def valueBytes (v : Word) : AccessSize → List Byte
  | .byte => [byteOf v 0]
  | .half => [byteOf v 0, byteOf v 1]
  | .word => [byteOf v 0, byteOf v 1, byteOf v 2, byteOf v 3]

/-- `MemRead(off, size)` (R66), or none for a bus error (R69). A read changes no state. -/
def State.memRead (s : State) (off : Nat) (size : AccessSize) : Option Word :=
  match regAt off with
  | some r => if size = .word then some (s.readReg r) else none
  | none =>
    match bufAt s.wmax off with
    | some b => if b.admits s.wmax off size then some (s.readBytes off size) else none
    | none => none

/-- `MemWrite(off, size, v)` (R67), or none for a bus error (R69); a write to OBUF is a bus error (R68). -/
def State.memWrite (s : State) (off : Nat) (size : AccessSize) (v : Word) : Option State :=
  match regAt off with
  | some r => if size = .word then some (s.writeReg v r) else none
  | none =>
    match bufAt s.wmax off with
    | some .obuf => none
    | some b => if b.admits s.wmax off size then some (s.storeCells off (valueBytes v size)) else none
    | none => none

/-! ### The host's move -/

/-- The access is a 4-byte read of STATUS, the one kind that is never held (R70). WAIT reads STATUS (30_encoding.md R99). -/
def HostOp.isStatusRead : HostOp → Bool
  | .read off .word => off.toNat == 0x00C
  | .read _ _ => false
  | .write _ _ _ => false
  | .wait => true

/-- The host can move: it has an access to make, RST_N is not asserted (R240, I13), and the access is not held (R70). -/
def State.hostCanMove (s : State) : Bool :=
  match s.host with
  | [] => false
  | op :: _ => !s.inReset && (!s.busy || op.isStatusRead)

/-- The host performs the access at the head of its queue (R75): a read returns its data in `replies`, a write has its effect, an
illegal access is a bus error, WAIT goes on until BUSY reads 0. -/
def State.hostMove (s : State) : Host.Outcome State Fault Refusal :=
  match s.host with
  | [] => .next s
  | .read off size :: rest =>
    match s.memRead off.toNat size with
    | some v => .next { s with host := rest, replies := v :: s.replies }
    | none => .fault (.busError off size .read)
  | .write off size v :: rest =>
    match s.memWrite off.toNat size v with
    | some t => .next { t with host := rest }
    | none => .fault (.busError off size .write)
  | .wait :: rest =>
    if (s.readReg .status).getLsbD 0 then .next s else .next { s with host := rest }

end Sys2Proof.Machine
end

