-- ==== Sys2Proof/Machine/Schedule.lean ====
section
/-! DEFINITION. Which agent moves at a step, and the platform's move of RST_N (10_state.md R20; 60_exceptions.md R212;
70_reset_and_hazards.md R240, R242, R247; log 5, log 8). -/

namespace Sys2Proof.Machine

/-- The engine step is enabled exactly when BUSY = 1 (R212), and not while RST_N is asserted (R240). -/
def State.engineCanMove (s : State) : Bool := s.busy && !s.inReset

/-- The platform has a reset-pin event to make. -/
def State.platformCanMove (s : State) : Bool := !s.pins.isEmpty

/-- The agent can move. -/
def State.canMove (s : State) : Agent → Bool
  | .host => s.hostCanMove
  | .engine => s.engineCanMove
  | .platform => s.platformCanMove

/-- Who moves when the schedule names nobody who can: the engine, so that every issued command completes (weak fairness, R212),
else the host, else the platform (log 5). -/
def State.defaultMover (s : State) : Option Agent :=
  if s.engineCanMove then some .engine
  else if s.hostCanMove then some .host
  else if s.platformCanMove then some .platform
  else none

/-- Who moves at this step: the agent the schedule names, if it can, else the default; none if no agent can. -/
def State.mover (s : State) : Option Agent :=
  match s.turns with
  | [] => s.defaultMover
  | a :: _ => if s.canMove a then some a else s.defaultMover

/-- The step's turn is used up. -/
def State.nextTurn (s : State) : State := { s with turns := s.turns.tail }

/-- The platform drives RST_N: "while it is asserted, and when it is released" every register takes its reset value (R240), and
the buffers are unspecified (R241, R242). -/
def State.platformMove (s : State) : Host.Outcome State Fault Refusal :=
  match s.pins with
  | [] => .next s
  | .assertReset :: rest => .next { s.hardwareReset with inReset := true, pins := rest }
  | .releaseReset :: rest => .next { s.hardwareReset with inReset := false, pins := rest }

end Sys2Proof.Machine
end

