-- ==== Sys2Proof/Machine/Step.lean ====
section
/-! DEFINITION. One step of the machine: one move of one agent. -/

namespace Sys2Proof.Machine

/-- The engine's move (60_exceptions.md R212): decode the command word in CMDLATCH and perform the whole command, or complete
with ILLEGAL_CMD (R205). -/
def engineMove (s : State) : Host.Outcome State Fault Refusal :=
  match decode s.fetch with
  | .ok i => exec i s
  | .error _ => illegalCommand s

/-- One step: the agent whose move it is moves; when no agent can, nothing changes (R222; log 5). -/
def step (s : State) : Host.Outcome State Fault Refusal :=
  match s.mover with
  | some .engine => engineMove s.nextTurn
  | some .host => s.nextTurn.hostMove
  | some .platform => s.nextTurn.platformMove
  | none => .next s.nextTurn

/-- The state with the command word `w` issued, so that the next step is the engine's and runs exactly it. The block fetches
nothing (10_state.md R21): a command runs when it stands in CMDLATCH with BUSY = 1, which is what its issue leaves (R211). RST_N is
not asserted and the schedule gives the next turn to the engine (log 10). -/
def State.withFetchWord (s : State) (nbits w : Nat) : State :=
  { s.issue (BitVec.ofNat 32 (w % 2 ^ nbits)) with inReset := false, turns := Agent.engine :: s.turns }

end Sys2Proof.Machine
end

