-- ==== Sys2Proof/Machine/Script.lean ====
section
/-! DEFINITION. Host scripts (30_encoding.md R97 to R99): the statements, the port accesses each expands to, and the reading of a
script line. A script has no semantics of its own (D32): it is expanded into the queue `host` of the state. Text is a list of
characters, so that Lean's kernel can run the reader. -/

namespace Sys2Proof.Machine

/-- A statement or pseudo-instruction of a host script (R98, R99). -/
inductive ScriptLine where
  /-- `W8`, `W16`, `W32 off, v`. -/
  | write (size : AccessSize) (off : BitVec 18) (v : Word)
  /-- `R8`, `R16`, `R32 off`, with the optional expectation `-> v`. -/
  | read (size : AccessSize) (off : BitVec 18) (expect : Option Word)
  /-- `CMD m`. -/
  | cmd (i : Instr)
  /-- `WAIT`. -/
  | wait
  /-- `CLRDONE`. -/
  | clrDone
  /-- `BYTES base, b0 b1 ... bk`. -/
  | bytes (base : BitVec 18) (bs : List Word)
  /-- `WORDS base, w0 w1 ... wk`. -/
  | words (base : BitVec 18) (ws : List Word)
  /-- `SETKEY k0 k1 k2 k3`. -/
  | setKey (k : KeyWords)
deriving DecidableEq, Repr

/-- `W8 base+i, bi` for each i in order (R99). -/
def expandBytes : Nat → List Word → List HostOp
  | _, [] => []
  | off, b :: bs => .write (BitVec.ofNat 18 off) .byte b :: expandBytes (off + 1) bs

/-- `W32 base+4i, wi` for each i in order (R99). -/
def expandWords : Nat → List Word → List HostOp
  | _, [] => []
  | off, w :: ws => .write (BitVec.ofNat 18 off) .word w :: expandWords (off + 4) ws

/-- The port accesses of a statement, in order (R98, R99). -/
def ScriptLine.expand : ScriptLine → List HostOp
  | .write size off v => [.write off size v]
  | .read size off _ => [.read off size]
  | .cmd i => [.write 0x008#18 .word (encode i)]
  | .wait => [.wait]
  | .clrDone => [.write 0x00C#18 .word 0x2#32]
  | .bytes base bs => expandBytes base.toNat bs
  | .words base ws => expandWords base.toNat ws
  | .setKey k =>
    [.write 0x030#18 .word k.k0, .write 0x034#18 .word k.k1, .write 0x038#18 .word k.k2, .write 0x03C#18 .word k.k3]

/-- Put a script's accesses behind those already queued. -/
def State.loadScript (script : List ScriptLine) (s : State) : State :=
  { s with host := s.host ++ script.flatMap ScriptLine.expand }

/-- The checkable expectations of a script, one for each read it performs, in order (R98). -/
def scriptExpectations (script : List ScriptLine) : List (Option Word) :=
  script.filterMap fun l =>
    match l with
    | .read _ _ e => some e
    | _ => none

/-- The values read (oldest first) meet the expectations: as many reads, and every stated value read (R98). -/
def meetsExpectations : List (Option Word) → List Word → Bool
  | [], [] => true
  | e :: es, v :: vs => (e == none || e == some v) && meetsExpectations es vs
  | _, _ => false

/-! ### Reading a line (R97, R98; log 9) -/

/-- The mnemonic of a command, as R97 spells it. -/
def Instr.mnemonicChars : Instr → List Char
  | .nop     => ['N', 'O', 'P']
  | .pack    => ['P', 'A', 'C', 'K']
  | .packL   => ['P', 'A', 'C', 'K', '.', 'L']
  | .unpack  => ['U', 'N', 'P', 'A', 'C', 'K']
  | .unpackL => ['U', 'N', 'P', 'A', 'C', 'K', '.', 'L']
  | .keypack => ['K', 'E', 'Y', 'P', 'A', 'C', 'K']
  | .encr    => ['E', 'N', 'C', 'R']
  | .decr    => ['D', 'E', 'C', 'R']
  | .encrypt => ['E', 'N', 'C', 'R', 'Y', 'P', 'T']
  | .decrypt => ['D', 'E', 'C', 'R', 'Y', 'P', 'T']
  | .srst    => ['S', 'R', 'S', 'T']

/-- Every command. -/
def allInstrs : List Instr :=
  [.nop, .pack, .packL, .unpack, .unpackL, .keypack, .encr, .decr, .encrypt, .decrypt, .srst]

/-- The command a mnemonic names; "Mnemonics are case-insensitive" (R97). -/
def readMnemonic (t : List Char) : Option Instr :=
  allInstrs.find? fun i => Instr.mnemonicChars i == t.map Char.toUpper

/-- The value of a digit in base 16, or none. -/
def hexDigit (c : Char) : Option Nat :=
  let n := c.toNat
  if 48 ≤ n ∧ n ≤ 57 then some (n - 48)
  else if 97 ≤ n ∧ n ≤ 102 then some (n - 87)
  else if 65 ≤ n ∧ n ≤ 70 then some (n - 55)
  else none

/-- Digits in a base, most significant first, after the value read so far. -/
def readDigits (base : Nat) : Nat → List Char → Option Nat
  | acc, [] => some acc
  | acc, c :: cs =>
    match hexDigit c with
    | some d => if d < base then readDigits base (acc * base + d) cs else none
    | none => none

/-- A number, "hexadecimal with the prefix `0x` or decimal" (R98). -/
def readNumber : List Char → Option Nat
  | [] => none
  | '0' :: 'x' :: [] => none
  | '0' :: 'x' :: cs => readDigits 16 0 cs
  | cs => readDigits 10 0 cs

/-- A number below `2 ^ w`, as a bit vector. -/
def readBits (w : Nat) (t : List Char) : Option (BitVec w) :=
  match readNumber t with
  | some n => if n < 2 ^ w then some (BitVec.ofNat w n) else none
  | none => none

/-- Numbers below `2 ^ w`, one for each token. -/
def readAllBits (w : Nat) : List (List Char) → Option (List (BitVec w))
  | [] => some []
  | t :: ts =>
    match readBits w t, readAllBits w ts with
    | some v, some vs => some (v :: vs)
    | _, _ => none

/-- The tokens of a line: parted by spaces, tabs and commas; `;` begins a comment (R98). The second argument is the token being
read, last character first. -/
def tokens : List Char → List Char → List (List Char)
  | [], cur => if cur.isEmpty then [] else [cur.reverse]
  | c :: cs, cur =>
    let here := if cur.isEmpty then [] else [cur.reverse]
    if c = ';' then here
    else if c = ' ' || c = ',' || c = '\t' then here ++ tokens cs []
    else tokens cs (c :: cur)

/-- The size a statement's number of bits names. -/
def readSize : List Char → Option AccessSize
  | ['8'] => some .byte
  | ['1', '6'] => some .half
  | ['3', '2'] => some .word
  | _ => none

/-- A base statement with the letter `W` or `R` and a size, and its operands (R98). -/
def readAccess (letter : Char) (size : AccessSize) (args : List (List Char)) : Option ScriptLine :=
  match letter, args with
  | 'W', [off, v] =>
    match readBits 18 off, readBits 32 v with
    | some off, some v => some (.write size off v)
    | _, _ => none
  | 'R', [off] => (readBits 18 off).map fun off => .read size off none
  | 'R', [off, arrow, v] =>
    match readBits 18 off, readBits 32 v with
    | some off, some v => if arrow = ['-', '>'] then some (.read size off (some v)) else none
    | _, _ => none
  | _, _ => none

/-- A pseudo-instruction (R99): its name and operands. R99 gives no range for the data of BYTES; it is any 32-bit number, since the
line expands to W8 and R67 ignores the bits of `v` above 7 (log 9). DESIGN CHOICE (log 9): BYTES or WORDS with a base and no data is a
line of no accesses, and a run that leaves the 18-bit offset space is no line. -/
def readPseudo (name : List Char) (args : List (List Char)) : Option ScriptLine :=
  if name = ['C', 'M', 'D'] then
    match args with
    | [m] => (readMnemonic m).map .cmd
    | _ => none
  else if name = ['W', 'A', 'I', 'T'] then (if args.isEmpty then some .wait else none)
  else if name = ['C', 'L', 'R', 'D', 'O', 'N', 'E'] then (if args.isEmpty then some .clrDone else none)
  else if name = ['B', 'Y', 'T', 'E', 'S'] then
    match args with
    | base :: rest =>
      match readBits 18 base, readAllBits 32 rest with
      | some b, some bs => if b.toNat + bs.length ≤ 2 ^ 18 then some (.bytes b bs) else none
      | _, _ => none
    | [] => none
  else if name = ['W', 'O', 'R', 'D', 'S'] then
    match args with
    | base :: rest =>
      match readBits 18 base, readAllBits 32 rest with
      | some b, some ws => if b.toNat + 4 * ws.length ≤ 2 ^ 18 then some (.words b ws) else none
      | _, _ => none
    | [] => none
  else if name = ['S', 'E', 'T', 'K', 'E', 'Y'] then
    match readAllBits 32 args with
    | some [k0, k1, k2, k3] => some (.setKey { k0 := k0, k1 := k1, k2 := k2, k3 := k3 })
    | _ => none
  else none

/-- One line of a script: `some []` for a blank line or a comment, `some [l]` for a statement, none for anything else. -/
def readLine (line : List Char) : Option (List ScriptLine) :=
  match tokens line [] with
  | [] => some []
  | name :: args =>
    let base :=
      match name with
      | letter :: bits => (readSize bits).bind fun size => readAccess letter size args
      | [] => none
    match base with
    | some l => some [l]
    | none => (readPseudo name args).map fun l => [l]

/-- A whole script, line by line; none if a line is no statement. -/
def readScript : List (List Char) → Option (List ScriptLine)
  | [] => some []
  | l :: ls =>
    match readLine l, readScript ls with
    | some a, some b => some (a ++ b)
    | _, _ => none

end Sys2Proof.Machine
end

