-- ==== Sys2Proof/Safety.lean ====
section
/-! DEFINITION. What counts as a safe state and a safe run, in the terms the statements use: the invariant of the machine, and the
legality of a host access as the rules of 20_memory.md say it. -/

namespace Sys2Proof.Machine

/-- WMAX is in its range (00_scope.md R5). -/
def State.capacityInv (s : State) : Bool := Config.wmaxOk s.wmax

/-- The memory list is in its canonical form and lists bytes of the four buffers only (20_memory.md R63). -/
def State.memoryInv (s : State) : Bool := s.mem.wf && s.mem.all fun c => (bufAt s.wmax c.1).isSome

/-- KLEN is at most 16 (10_state.md R34). -/
def State.klenInv (s : State) : Bool := decide (s.klen.toNat ≤ 16)

/-- ERR is one of the codes 0 to 4 (60_exceptions.md R206). -/
def State.errInv (s : State) : Bool := decide (s.err.toNat ≤ 4)

/-- The values ROUNDS can hold (10_state.md R35). -/
def roundsValues : List Nat := [0, 6, 7, 8, 9, 10, 11, 12, 13, 14, 16, 19, 23, 32]

/-- ROUNDS holds one of its values (10_state.md R35). -/
def State.roundsInv (s : State) : Bool := roundsValues.contains s.rounds.toNat

/-- OUTLEN names bytes of OBUF and leaves room for the terminating zero (40_packing.md R112, 10_state.md R40). -/
def State.outlenInv (s : State) : Bool := decide (s.outlen.toNat ≤ 4 * s.wmax)

/-- While a command is in flight, `BUSY = 1, DONE = 0, ERR = 0` (70_reset_and_hazards.md R247, 60_exceptions.md R211). -/
def State.flightInv (s : State) : Bool := !s.busy || (!s.done && s.err == 0#4)

/-- While RST_N is asserted, every register holds its reset value (70_reset_and_hazards.md R240). -/
def State.resetInv (s : State) : Bool := !s.inReset || decide (s.resetRegs = s)

/-- The machine's invariant: all of the above. -/
def State.inv (s : State) : Bool :=
  s.capacityInv && s.memoryInv && s.klenInv && s.errInv && s.roundsInv && s.outlenInv && s.flightInv && s.resetInv

/-- A read of `size` bytes at `off` is legal (20_memory.md R64, R65): 4 bytes at a register's offset, or an aligned access that
lies inside one buffer. -/
def readLegal (wmax off : Nat) (size : AccessSize) : Bool :=
  if off < 0x40 then
    size == .word && decide (off % 4 = 0) && (decide (off ≤ 0x24) || decide (0x30 ≤ off))
  else
    decide (off % size.bytes = 0) &&
      [Buf.kbuf, Buf.wbuf, Buf.ibuf, Buf.obuf].any fun b =>
        decide (b.base ≤ off) && decide (off + size.bytes ≤ b.base + b.extent wmax)

/-- A write is legal where a read is, except in the OBUF region (20_memory.md R68). -/
def writeLegal (wmax off : Nat) (size : AccessSize) : Bool :=
  readLegal wmax off size && decide (off < 0x30000)

/-- The access raises no bus error (20_memory.md R69). -/
def HostOp.legal (wmax : Nat) : HostOp → Bool
  | .read off size => readLegal wmax off.toNat size
  | .write off size _ => writeLegal wmax off.toNat size
  | .wait => true

/-- Every access the host will make is legal. -/
def State.hostLegal (s : State) : Bool := s.host.all (HostOp.legal s.wmax)

/-- A safe run of `k` steps: it ends in a state, not in a fault or a refusal. -/
def State.runsSafely (s : State) (k : Nat) : Prop := ∃ t : State, core.run k s = .next t

end Sys2Proof.Machine
end

