-- ==== Sys2Proof/Certificates/Slice0/Obligations.lean ====
section
/-! DEFINITION. The statements for the provers. Each is a rule of spec/ or follows from several; the docstring names them. In a
statement about a command, `t = { s with mem := t.mem, … }` is its register frame (every field not named is unchanged), and the
clause on `cellAt` its memory frame (every byte outside the stored ones reads as before). -/

open Sys2Proof Sys2Proof.Machine

/-! ### Encoding (30_encoding.md) -/

/-- R93, R99: decoding inverts encoding, and encoding inverts decoding, over all 2^32 words. -/
def Obligations.DecodeAndEncodeAgree : Prop :=
  ∀ (v : Word) (i : Instr), decode v = .ok i ↔ v = encode i

/-- R93: the legal command words and the command of each, as the map lists them; every other word is illegal. -/
def Obligations.LegalWordsAreTheElevenOfTheMap : Prop :=
  ∀ (v : Word) (i : Instr), decode v = .ok i ↔ (v, i) ∈
    [(0x00#32, Instr.nop), (0x01#32, .pack), (0x02#32, .unpack), (0x03#32, .keypack), (0x04#32, .encr), (0x05#32, .decr),
     (0x06#32, .encrypt), (0x07#32, .decrypt), (0x0F#32, .srst), (0x11#32, .packL), (0x12#32, .unpackL)]

/-- R93 (a sanity statement): words written out bit by bit from the table, one or more of each family, and three illegal ones. -/
def Obligations.WordsOfTheTableDecode : Prop :=
  decodeTableWord 32 0b00000000000000000000000000000000 = some .nop ∧
  decodeTableWord 32 0b00000000000000000000000000010001 = some .packL ∧
  decodeTableWord 32 0b00000000000000000000000000000010 = some .unpack ∧
  decodeTableWord 32 0b00000000000000000000000000000101 = some .decr ∧
  decodeTableWord 32 0b00000000000000000000000000000110 = some .encrypt ∧
  decodeTableWord 32 0b00000000000000000000000000001111 = some .srst ∧
  decode 0x1F#32 = .error .noLengthForm ∧ decode 0x08#32 = .error .reservedOp ∧ decode 0x80000004#32 = .error .reservedBits

/-! ### The engine's step (60_exceptions.md) -/

/-- R212: with BUSY = 1 and the move the engine's, a step is the command that CMDLATCH decodes to, run on the state with the
turn used up (`turns` is the model's schedule, log 5). -/
def Obligations.EngineStepRunsDecodedCommand : Prop :=
  ∀ (s : State) (i : Instr), s.busy = true → s.inReset = false → (s.turns = [] ∨ s.turns.head? = some .engine) →
    decode s.cmdLatch = .ok i → step s = exec i { s with turns := s.turns.tail }

/-- R205: when the engine moves, an illegal command word completes with ERR = 4 and OUTLEN = 0 and changes nothing else, and no host
read shows CMDLATCH. Whose move it is, `s.mover`, is a premise; the turn used up is the model's (log 5). -/
def Obligations.IllegalWordCompletesWithIllegalCmd : Prop :=
  (∀ s : State, s.mover = some .engine →
    s.cmdLatch ∉ [0x00#32, 0x01#32, 0x02#32, 0x03#32, 0x04#32, 0x05#32, 0x06#32, 0x07#32, 0x0F#32, 0x11#32, 0x12#32] →
    step s = .next { s with turns := s.turns.tail, outlen := 0#32, err := 4#4, done := true, busy := false }) ∧
  (∀ (s : State) (v : Word) (off : Nat) (size : AccessSize),
    ({ s with cmdLatch := v } : State).memRead off size = s.memRead off size)

/-- The model's own (log 10), not a rule: the state `withFetchWord` builds is the issued command of R211, and its next step runs
exactly that command. -/
def Obligations.WithFetchWordRunsTheCommand : Prop :=
  ∀ (s : State) (i : Instr), step (s.withFetchWord 32 (encode i).toNat) =
    exec i { s with cmdLatch := encode i, busy := true, done := false, err := 0#4, inReset := false }

/-- R210, R212: every command completes from every state: `exec` answers a next state with BUSY = 0; every command but SRST sets
DONE, and SRST leaves it 0; a command with a nonzero code leaves OUTLEN = 0 (R208). -/
def Obligations.EveryCommandCompletes : Prop :=
  ∀ (i : Instr) (s : State), ∃ t, exec i s = .next t ∧ t.busy = false ∧ (t.done = true ↔ i ≠ .srst) ∧
    (t.err ≠ 0#4 → t.outlen = 0#32)

/-! ### Control commands (43_control.md) -/

/-- R190: NOP, word 0, writes BUSY, DONE and ERR = 0 and leaves every other register and every buffer. -/
def Obligations.NopOnlyCompletes : Prop :=
  decode 0x00000000#32 = .ok .nop ∧
  ∀ s : State, exec .nop s = .next { s with err := 0#4, done := true, busy := false }

/-- R191: SRST, word 0x0F, gives every register its reset value, keeps every buffer and does not set DONE, so IRQ is 0; with
L = 1 it is illegal. -/
def Obligations.SrstResetsRegistersAndKeepsBuffers : Prop :=
  decode 0x0000000F#32 = .ok .srst ∧ (∃ e, decode 0x0000001F#32 = .error e) ∧
  ∀ s : State, ∃ t, exec .srst s = .next t ∧ t.irq = false ∧
    t = { s with
      cmdLatch := 0#32, busy := false, done := false, err := 0#4, ie := false, len := 0#32, wcnt := 0#32, outlen := 0#32,
      klen := 0#5, rounds := 0#32, key := { k0 := 0#32, k1 := 0#32, k2 := 0#32, k3 := 0#32 } }

/-! ### Packing and unpacking (40_packing.md) -/

/-- R113: PACK, word 0x01. CAPACITY when `ceil4(LEN) > WMAX`; else byte `i` of the words is `IBUF[i]`, zero past LEN, WCNT is
`ceil4(LEN)`, and nothing else changes. -/
def Obligations.PackWritesInputAsWords : Prop :=
  decode 0x00000001#32 = .ok .pack ∧
  ∀ s : State,
    (s.wmax < (s.len.toNat + 3) / 4 →
      exec .pack s = .next { s with outlen := 0#32, err := 3#4, done := true, busy := false }) ∧
    ((s.len.toNat + 3) / 4 ≤ s.wmax → ∃ t, exec .pack s = .next t ∧
      t = { s with mem := t.mem, wcnt := BitVec.ofNat 32 ((s.len.toNat + 3) / 4), err := 0#4, done := true, busy := false } ∧
      (∀ i < 4 * ((s.len.toNat + 3) / 4), t.byteAt .wbuf i = if i < s.len.toNat then s.byteAt .ibuf i else 0#8) ∧
      (∀ a, ¬ (Buf.wbuf.base ≤ a ∧ a < Buf.wbuf.base + 4 * ((s.len.toNat + 3) / 4)) → t.cellAt a = s.cellAt a))

/-- R114: PACK.L, word 0x11. CAPACITY when `ceil4(LEN) + 1 > WMAX`; else as PACK, with LEN in the word at index `ceil4(LEN)` and
WCNT one more. -/
def Obligations.PackLWritesInputAndLengthWord : Prop :=
  decode 0x00000011#32 = .ok .packL ∧
  ∀ s : State,
    (s.wmax < (s.len.toNat + 3) / 4 + 1 →
      exec .packL s = .next { s with outlen := 0#32, err := 3#4, done := true, busy := false }) ∧
    ((s.len.toNat + 3) / 4 + 1 ≤ s.wmax → ∃ t, exec .packL s = .next t ∧
      t = { s with mem := t.mem, wcnt := BitVec.ofNat 32 ((s.len.toNat + 3) / 4 + 1), err := 0#4, done := true, busy := false } ∧
      (∀ i < 4 * ((s.len.toNat + 3) / 4), t.byteAt .wbuf i = if i < s.len.toNat then s.byteAt .ibuf i else 0#8) ∧
      t.wordAt ((s.len.toNat + 3) / 4) = s.len ∧
      (∀ a, ¬ (Buf.wbuf.base ≤ a ∧ a < Buf.wbuf.base + 4 * ((s.len.toNat + 3) / 4 + 1)) → t.cellAt a = s.cellAt a))

/-- R115: UNPACK, word 0x02. CAPACITY when `WCNT > WMAX`; else `OBUF[0 .. 4*WCNT-1]` are the words' bytes, `OBUF[4*WCNT] = 0`, OUTLEN
is `4*WCNT`, and nothing else changes. -/
def Obligations.UnpackWritesWordsAsBytes : Prop :=
  decode 0x00000002#32 = .ok .unpack ∧
  ∀ s : State,
    (s.wmax < s.wcnt.toNat →
      exec .unpack s = .next { s with outlen := 0#32, err := 3#4, done := true, busy := false }) ∧
    (s.wcnt.toNat ≤ s.wmax → ∃ t, exec .unpack s = .next t ∧
      t = { s with mem := t.mem, outlen := BitVec.ofNat 32 (4 * s.wcnt.toNat), err := 0#4, done := true, busy := false } ∧
      (∀ i < 4 * s.wcnt.toNat, t.byteAt .obuf i = byteOf (s.wordAt (i / 4)) (i % 4)) ∧
      t.byteAt .obuf (4 * s.wcnt.toNat) = 0#8 ∧
      (∀ a, ¬ (Buf.obuf.base ≤ a ∧ a < Buf.obuf.base + (4 * s.wcnt.toNat + 1)) → t.cellAt a = s.cellAt a))

/-- R116: UNPACK.L, word 0x12. With `m` the word `WBUF[WCNT-1]`: INVALID_INPUT for `WCNT = 0`, then CAPACITY for `WCNT > WMAX`, then
CORRUPT_DATA for `m > 4*WCNT`; else `OBUF[0 .. m-1]` are the words' first `m` bytes, `OBUF[m] = 0`, OUTLEN is `m`. -/
def Obligations.UnpackLChecksAndWritesBytes : Prop :=
  decode 0x00000012#32 = .ok .unpackL ∧
  ∀ s : State,
    (s.wcnt = 0#32 → exec .unpackL s = .next { s with outlen := 0#32, err := 1#4, done := true, busy := false }) ∧
    (s.wcnt ≠ 0#32 → s.wmax < s.wcnt.toNat →
      exec .unpackL s = .next { s with outlen := 0#32, err := 3#4, done := true, busy := false }) ∧
    (s.wcnt ≠ 0#32 → s.wcnt.toNat ≤ s.wmax → 4 * s.wcnt.toNat < (s.wordAt (s.wcnt.toNat - 1)).toNat →
      exec .unpackL s = .next { s with outlen := 0#32, err := 2#4, done := true, busy := false }) ∧
    (s.wcnt ≠ 0#32 → s.wcnt.toNat ≤ s.wmax → (s.wordAt (s.wcnt.toNat - 1)).toNat ≤ 4 * s.wcnt.toNat →
      ∃ t, exec .unpackL s = .next t ∧
        t = { s with mem := t.mem, outlen := s.wordAt (s.wcnt.toNat - 1), err := 0#4, done := true, busy := false } ∧
        (∀ i < (s.wordAt (s.wcnt.toNat - 1)).toNat, t.byteAt .obuf i = byteOf (s.wordAt (i / 4)) (i % 4)) ∧
        t.byteAt .obuf (s.wordAt (s.wcnt.toNat - 1)).toNat = 0#8 ∧
        (∀ a, ¬ (Buf.obuf.base ≤ a ∧ a < Buf.obuf.base + ((s.wordAt (s.wcnt.toNat - 1)).toNat + 1)) → t.cellAt a = s.cellAt a))

/-- R117: KEYPACK, word 0x03: byte `j` of KEYk is `KBUF[4k + j]`, zero at positions `>= KLEN`; ERR = 0 always, and no buffer and no
other register changes. -/
def Obligations.KeypackPacksKeyBytes : Prop :=
  decode 0x00000003#32 = .ok .keypack ∧
  ∀ s : State, ∃ t, exec .keypack s = .next t ∧ t = { s with key := t.key, err := 0#4, done := true, busy := false } ∧
    ∀ k < 4, ∀ j < 4, byteOf (t.key.at (BitVec.ofNat 2 k)) j =
      if 4 * k + j < s.klen.toNat then s.byteAt .kbuf (4 * k + j) else 0#8

/-- R110: `packWords`: `ceil4(len) + L` words; byte `i` of the first `ceil4(len)` is `src[i]`, zero past the end; with L = 1 the last
word is `len`. -/
def Obligations.PackWordsPutsBytesInOrder : Prop :=
  ∀ (src : List Byte) (l : Bool), src.length < 2 ^ 32 →
    (packWords src l).length = (src.length + 3) / 4 + (if l then 1 else 0) ∧
    (∀ i < 4 * ((src.length + 3) / 4), byteOf ((packWords src l).getD (i / 4) 0#32) (i % 4) = src.getD i 0#8) ∧
    (l = true → ((packWords src l).getD ((src.length + 3) / 4) 0#32).toNat = src.length)

/-- R111: byte `j` of `key[k]` is `kb[4k + j]`, zero at positions `>= klen`; and the result "is `packWords(kb, klen, 0)` padded with
zero words to length 4". -/
def Obligations.KeyWordsArePackedAndZeroPadded : Prop :=
  ∀ (kb : List Byte) (klen k : Nat), kb.length = 16 → klen ≤ 16 → k < 4 →
    (∀ j < 4, byteOf ((keyWords kb klen).at (BitVec.ofNat 2 k)) j = if 4 * k + j < klen then kb.getD (4 * k + j) 0#8 else 0#8) ∧
    (keyWords kb klen).at (BitVec.ofNat 2 k) = (packWords (kb.take klen) false).getD k 0#32

/-- R118: unpacking what was packed gives the bytes back, with the length word for any length the capacity admits, and without
it for whole words. -/
def Obligations.UnpackInvertsPack : Prop :=
  (∀ (wmax : Nat) (src : List Byte), Config.wmaxOk wmax = true → src.length ≤ 4 * (wmax - 1) →
    unpackBytes (packWords src true) true = some (src.length, src ++ [0#8])) ∧
  (∀ (src : List Byte) (k : Nat), src.length = 4 * k →
    unpackBytes (packWords src false) false = some (4 * k, src ++ [0#8]))

/-! ### The round mixer (41_round_transform.md) -/

/-- R143, R144: MX, with the key word chosen by `(p & 3) XOR e`, which is always the index of one of the four. -/
def Obligations.MixingFunctionFormula : Prop :=
  ∀ (z y sum : Word) (e : BitVec 2) (p : Nat) (key : KeyWords),
    ∃ k, [key.k0, key.k1, key.k2, key.k3][(p % 4) ^^^ e.toNat]? = some k ∧
      mx z y sum e p key =
        (((z >>> 5) ^^^ (y <<< 2)) + ((y >>> 3) ^^^ (z <<< 4))) ^^^ ((sum ^^^ y) + (k ^^^ z))

/-- R141: the round count and the table of its values. -/
def Obligations.RoundCountTable : Prop :=
  ∀ n : Nat, 2 ≤ n → roundCount n = 6 + 52 / n ∧
    (n = 2 → roundCount n = 32) ∧ (n = 3 → roundCount n = 23) ∧ (n = 4 → roundCount n = 19) ∧ (n = 5 → roundCount n = 16) ∧
    (n = 6 → roundCount n = 14) ∧ (n = 7 → roundCount n = 13) ∧ (n = 8 → roundCount n = 12) ∧
    (9 ≤ n → n ≤ 10 → roundCount n = 11) ∧ (11 ≤ n → n ≤ 13 → roundCount n = 10) ∧ (14 ≤ n → n ≤ 17 → roundCount n = 9) ∧
    (18 ≤ n → n ≤ 26 → roundCount n = 8) ∧ (27 ≤ n → n ≤ 52 → roundCount n = 7) ∧ (53 ≤ n → roundCount n = 6)

/-- The index form of R152: one step at word `p`, with both neighbours read at that moment and `e = (sum >> 2) & 3` (R142) written
out; `sub` chooses `-` for `+`. -/
def Sys2Proof.Machine.indexStep (sub : Bool) (key : KeyWords) (sum : Word) (w : List Word) (p : Nat) : List Word :=
  let n := w.length
  let v := mx (w.getD ((p + n - 1) % n) 0#32) (w.getD ((p + 1) % n) 0#32) sum (BitVec.ofNat 2 (sum.toNat / 4)) p key
  w.set p (if sub then w.getD p 0#32 - v else w.getD p 0#32 + v)

/-- The rounds of R152: `q` rounds, the sum of round `r` (from 0) being `(r + 1) * DELTA` for encryption and `(q - r) * DELTA` for
decryption, over `p = 0 .. n` or `p = n .. 0`. -/
def Sys2Proof.Machine.indexRounds (sub : Bool) (key : KeyWords) (w : List Word) : List Word :=
  let n := w.length
  let q := 6 + 52 / n
  if sub then
    (List.range q).foldl (fun v r => (List.range n).reverse.foldl (indexStep true key (BitVec.ofNat 32 (q - r) * DELTA)) v) w
  else
    (List.range q).foldl (fun v r => (List.range n).foldl (indexStep false key (BitVec.ofNat 32 (r + 1) * DELTA)) v) w

/-- R152, R142: the loops of R146 and R147 are equivalent to the index form, with `e` taken from the round's own `sum`. -/
def Obligations.TransformsEqualTheIndexForm : Prop :=
  ∀ (w : List Word) (key : KeyWords), 2 ≤ w.length →
    encRounds w key = indexRounds false key w ∧ decRounds w key = indexRounds true key w

/-- R150: each transform inverts the other, for every key and every two or more words. -/
def Obligations.TransformsAreInverse : Prop :=
  ∀ (w : List Word) (key : KeyWords), 2 ≤ w.length →
    decRounds (encRounds w key) key = w ∧ encRounds (decRounds w key) key = w

/-- R151: the loop of R147 runs exactly `q` times: `sum` reaches 0 after the `q`-th subtraction and not before, so more fuel than
`q` changes nothing; and the initial values of `sum`. -/
def Obligations.DecryptLoopRunsQTimes : Prop :=
  (∀ n k : Nat, 2 ≤ n → k ≤ roundCount n →
    (BitVec.ofNat 32 (roundCount n) * DELTA - BitVec.ofNat 32 k * DELTA = 0#32 ↔ k = roundCount n)) ∧
  (∀ (key : KeyWords) (n fuel : Nat) (a : List Word × Word), 2 ≤ n → roundCount n ≤ fuel →
    decLoop key (n - 1) fuel (BitVec.ofNat 32 (roundCount n) * DELTA) a =
      decLoop key (n - 1) (roundCount n) (BitVec.ofNat 32 (roundCount n) * DELTA) a) ∧
  BitVec.ofNat 32 (roundCount 2) * DELTA = 0xc6ef3720#32 ∧ BitVec.ofNat 32 (roundCount 3) * DELTA = 0x36fbef9f#32 ∧
  BitVec.ofNat 32 (roundCount 4) * DELTA = 0xbe1e08bb#32 ∧ BitVec.ofNat 32 (roundCount 5) * DELTA = 0xe3779b90#32 ∧
  BitVec.ofNat 32 (roundCount 6) * DELTA = 0xa708a81e#32 ∧
  (∀ n, 53 ≤ n → BitVec.ofNat 32 (roundCount n) * DELTA = 0xb54cda56#32)

/-- R148: ENCR, word 0x04: INVALID_INPUT for `WCNT = 0`, then CAPACITY for `WCNT > WMAX`, then the passthrough for one word, else
`encRounds` over `WBUF[0 .. WCNT-1]` under KEY0..KEY3 and ROUNDS; nothing else changes. What `encRounds` is, R146, is said by
`TransformsEqualTheIndexForm`. -/
def Obligations.EncrTransformsWords : Prop :=
  decode 0x00000004#32 = .ok .encr ∧
  ∀ s : State,
    (s.wcnt = 0#32 → exec .encr s = .next { s with outlen := 0#32, err := 1#4, done := true, busy := false }) ∧
    (s.wcnt ≠ 0#32 → s.wmax < s.wcnt.toNat →
      exec .encr s = .next { s with outlen := 0#32, err := 3#4, done := true, busy := false }) ∧
    (s.wcnt = 1#32 → 1 ≤ s.wmax →
      exec .encr s = .next { s with rounds := 0#32, err := 0#4, done := true, busy := false }) ∧
    (2 ≤ s.wcnt.toNat → s.wcnt.toNat ≤ s.wmax → ∃ t, exec .encr s = .next t ∧
      t = { s with mem := t.mem, rounds := BitVec.ofNat 32 (6 + 52 / s.wcnt.toNat), err := 0#4, done := true, busy := false } ∧
      t.words s.wcnt.toNat = encRounds (s.words s.wcnt.toNat) s.key ∧
      (∀ a, ¬ (Buf.wbuf.base ≤ a ∧ a < Buf.wbuf.base + 4 * s.wcnt.toNat) → t.cellAt a = s.cellAt a))

/-- R149: DECR, word 0x05: as ENCR with `decRounds`. -/
def Obligations.DecrTransformsWords : Prop :=
  decode 0x00000005#32 = .ok .decr ∧
  ∀ s : State,
    (s.wcnt = 0#32 → exec .decr s = .next { s with outlen := 0#32, err := 1#4, done := true, busy := false }) ∧
    (s.wcnt ≠ 0#32 → s.wmax < s.wcnt.toNat →
      exec .decr s = .next { s with outlen := 0#32, err := 3#4, done := true, busy := false }) ∧
    (s.wcnt = 1#32 → 1 ≤ s.wmax →
      exec .decr s = .next { s with rounds := 0#32, err := 0#4, done := true, busy := false }) ∧
    (2 ≤ s.wcnt.toNat → s.wcnt.toNat ≤ s.wmax → ∃ t, exec .decr s = .next t ∧
      t = { s with mem := t.mem, rounds := BitVec.ofNat 32 (6 + 52 / s.wcnt.toNat), err := 0#4, done := true, busy := false } ∧
      t.words s.wcnt.toNat = decRounds (s.words s.wcnt.toNat) s.key ∧
      (∀ a, ¬ (Buf.wbuf.base ≤ a ∧ a < Buf.wbuf.base + 4 * s.wcnt.toNat) → t.cellAt a = s.cellAt a))

/-- R149, R150: DECR after ENCR gives every byte of every buffer back, and the registers but ROUNDS and STATUS. -/
def Obligations.DecrAfterEncrRestoresBuffers : Prop :=
  ∀ s t u : State, 1 ≤ s.wcnt.toNat → s.wcnt.toNat ≤ s.wmax → exec .encr s = .next t → exec .decr t = .next u →
    (∀ a, u.cellAt a = s.cellAt a) ∧
    u = { s with mem := u.mem, rounds := u.rounds, err := 0#4, done := true, busy := false }

/-! ### The composite commands (42_facade.md) -/

/-- R170, R171: ENCRYPT, word 0x06. INVALID_INPUT for `LEN = 0`, then CAPACITY; else, with `n = ceil4(LEN) + 1` and `c` the encryption of
the packed input under the packed key: WBUF, WCNT, KEY, ROUNDS, OBUF and OUTLEN as the steps leave them, and nothing else
changes. -/
def Obligations.EncryptPacksMixesUnpacks : Prop :=
  decode 0x00000006#32 = .ok .encrypt ∧
  ∀ s : State, s.capacityInv = true →
    (s.len = 0#32 → exec .encrypt s = .next { s with outlen := 0#32, err := 1#4, done := true, busy := false }) ∧
    (s.len ≠ 0#32 → s.wmax < (s.len.toNat + 3) / 4 + 1 →
      exec .encrypt s = .next { s with outlen := 0#32, err := 3#4, done := true, busy := false }) ∧
    (s.len ≠ 0#32 → (s.len.toNat + 3) / 4 + 1 ≤ s.wmax → ∀ (n : Nat) (key : KeyWords) (c : List Word),
      n = (s.len.toNat + 3) / 4 + 1 → key = keyWords (s.bytes .kbuf 16) s.klen.toNat →
      c = encRounds (packWords (s.bytes .ibuf s.len.toNat) true) key →
      ∃ t, exec .encrypt s = .next t ∧
        t = { s with
          mem := t.mem, wcnt := BitVec.ofNat 32 n, key := key, rounds := BitVec.ofNat 32 (6 + 52 / n),
          outlen := BitVec.ofNat 32 (4 * n), err := 0#4, done := true, busy := false } ∧
        t.words n = c ∧
        (∀ i < 4 * n, t.byteAt .obuf i = byteOf (c.getD (i / 4) 0#32) (i % 4)) ∧ t.byteAt .obuf (4 * n) = 0#8 ∧
        (∀ a, ¬ (Buf.wbuf.base ≤ a ∧ a < Buf.wbuf.base + 4 * n) → ¬ (Buf.obuf.base ≤ a ∧ a < Buf.obuf.base + (4 * n + 1)) →
          t.cellAt a = s.cellAt a))

/-- R172, R173: DECRYPT, word 0x07. INVALID_INPUT for `LEN = 0`, then CAPACITY; else, with `n = ceil4(LEN)`, `d` the decryption (one word
passes through) and `m` its last word: CORRUPT_DATA for `m > 4*n`, keeping WBUF, WCNT, KEY and ROUNDS and writing no byte of OBUF;
else `m` bytes and a zero to OBUF. -/
def Obligations.DecryptPacksMixesUnpacks : Prop :=
  decode 0x00000007#32 = .ok .decrypt ∧
  ∀ s : State, s.capacityInv = true →
    (s.len = 0#32 → exec .decrypt s = .next { s with outlen := 0#32, err := 1#4, done := true, busy := false }) ∧
    (s.len ≠ 0#32 → s.wmax < (s.len.toNat + 3) / 4 →
      exec .decrypt s = .next { s with outlen := 0#32, err := 3#4, done := true, busy := false }) ∧
    (s.len ≠ 0#32 → (s.len.toNat + 3) / 4 ≤ s.wmax → ∀ (n m : Nat) (key : KeyWords) (d : List Word),
      n = (s.len.toNat + 3) / 4 → key = keyWords (s.bytes .kbuf 16) s.klen.toNat →
      d = (if n = 1 then packWords (s.bytes .ibuf s.len.toNat) false
           else decRounds (packWords (s.bytes .ibuf s.len.toNat) false) key) →
      m = (d.getD (n - 1) 0#32).toNat →
      (4 * n < m → ∃ t, exec .decrypt s = .next t ∧
        t = { s with
          mem := t.mem, wcnt := BitVec.ofNat 32 n, key := key, rounds := BitVec.ofNat 32 (if n = 1 then 0 else 6 + 52 / n),
          outlen := 0#32, err := 2#4, done := true, busy := false } ∧
        t.words n = d ∧
        (∀ a, ¬ (Buf.wbuf.base ≤ a ∧ a < Buf.wbuf.base + 4 * n) → t.cellAt a = s.cellAt a)) ∧
      (m ≤ 4 * n → ∃ t, exec .decrypt s = .next t ∧
        t = { s with
          mem := t.mem, wcnt := BitVec.ofNat 32 n, key := key, rounds := BitVec.ofNat 32 (if n = 1 then 0 else 6 + 52 / n),
          outlen := BitVec.ofNat 32 m, err := 0#4, done := true, busy := false } ∧
        t.words n = d ∧
        (∀ i < m, t.byteAt .obuf i = byteOf (d.getD (i / 4) 0#32) (i % 4)) ∧ t.byteAt .obuf m = 0#8 ∧
        (∀ a, ¬ (Buf.wbuf.base ≤ a ∧ a < Buf.wbuf.base + 4 * n) → ¬ (Buf.obuf.base ≤ a ∧ a < Buf.obuf.base + (m + 1)) →
          t.cellAt a = s.cellAt a)))

/-- R175: the output length of a successful ENCRYPT. -/
def Obligations.CiphertextLength : Prop :=
  ∀ s t : State, s.capacityInv = true → exec .encrypt s = .next t → t.err = 0#4 →
    t.outlen.toNat = 4 * ((s.len.toNat + 3) / 4 + 1) ∧ t.outlen.toNat % 4 = 0 ∧ s.len.toNat + 4 ≤ t.outlen.toNat

/-- R174: ENCRYPT, then DECRYPT of its output under the same key bytes, gives the original length and bytes. -/
def Obligations.DecryptInvertsEncrypt : Prop :=
  ∀ s t u : State, s.capacityInv = true → 1 ≤ s.len.toNat → s.len.toNat ≤ 4 * (s.wmax - 1) → exec .encrypt s = .next t →
    u.wmax = s.wmax → u.len = t.outlen → u.klen = s.klen →
    (∀ i < t.outlen.toNat, u.byteAt .ibuf i = t.byteAt .obuf i) → (∀ i < 16, u.byteAt .kbuf i = s.byteAt .kbuf i) →
    ∃ v, exec .decrypt u = .next v ∧ v.err = 0#4 ∧ v.outlen = s.len ∧
      ∀ i < s.len.toNat, v.byteAt .obuf i = s.byteAt .ibuf i

/-- R176: the results of ENCRYPT and DECRYPT depend only on LEN, `IBUF[0 .. LEN-1]`, KLEN and `KBUF[0 .. KLEN-1]` (in blocks of one
capacity). -/
def Obligations.FacadeDependsOnlyOnItsInputs : Prop :=
  ∀ (i : Instr) (s s' : State), (i = .encrypt ∨ i = .decrypt) → s.capacityInv = true → s'.wmax = s.wmax →
    s'.len = s.len → s'.klen = s.klen → s.klen.toNat ≤ 16 →
    (∀ j < s.len.toNat, s'.byteAt .ibuf j = s.byteAt .ibuf j) → (∀ j < s.klen.toNat, s'.byteAt .kbuf j = s.byteAt .kbuf j) →
    ∃ t t', exec i s = .next t ∧ exec i s' = .next t' ∧ t'.err = t.err ∧ t'.outlen = t.outlen ∧
      (t.err = 0#4 → ∀ j ≤ t.outlen.toNat, t'.byteAt .obuf j = t.byteAt .obuf j) ∧
      ((t.err = 0#4 ∨ t.err = 2#4) → t'.wcnt = t.wcnt ∧ t'.key = t.key ∧ t'.rounds = t.rounds ∧
        ∀ k < t.wcnt.toNat, t'.wordAt k = t.wordAt k)

/-! ### Errors (60_exceptions.md) -/

/-- The condition of INVALID_INPUT (R202). -/
def Sys2Proof.Machine.emptyInput (i : Instr) (s : State) : Prop :=
  match i with
  | .encrypt => s.len.toNat = 0
  | .decrypt => s.len.toNat = 0
  | .encr => s.wcnt.toNat = 0
  | .decr => s.wcnt.toNat = 0
  | .unpackL => s.wcnt.toNat = 0
  | .nop => False
  | .pack => False
  | .packL => False
  | .unpack => False
  | .keypack => False
  | .srst => False

/-- The condition of CAPACITY (R204, R171, R173). -/
def Sys2Proof.Machine.overCapacity (i : Instr) (s : State) : Prop :=
  match i with
  | .pack => (s.len.toNat + 3) / 4 > s.wmax
  | .packL => (s.len.toNat + 3) / 4 + 1 > s.wmax
  | .unpack => s.wcnt.toNat > s.wmax
  | .unpackL => s.wcnt.toNat > s.wmax
  | .encr => s.wcnt.toNat > s.wmax
  | .decr => s.wcnt.toNat > s.wmax
  | .encrypt => (s.len.toNat + 3) / 4 + 1 > s.wmax
  | .decrypt => (s.len.toNat + 3) / 4 > s.wmax
  | .nop => False
  | .keypack => False
  | .srst => False

/-- R202, R203, R204, R209: the code a command reports: INVALID_INPUT if its condition holds, else CAPACITY if its condition holds, else
CORRUPT_DATA exactly for UNPACK.L and DECRYPT when the last word, which stays readable in `WBUF[WCNT-1]`, is above `4*WCNT`, else 0. -/
def Obligations.ErrorCodeIsTheFirstInPriority : Prop :=
  ∀ (i : Instr) (s : State), s.capacityInv = true → ∃ t, exec i s = .next t ∧
    (emptyInput i s → t.err = 1#4) ∧
    (¬ emptyInput i s → overCapacity i s → t.err = 3#4) ∧
    (¬ emptyInput i s → ¬ overCapacity i s → i = .unpackL ∨ i = .decrypt →
      4 * t.wcnt.toNat < (t.wordAt (t.wcnt.toNat - 1)).toNat → t.err = 2#4) ∧
    (¬ emptyInput i s → ¬ overCapacity i s → i = .unpackL ∨ i = .decrypt →
      (t.wordAt (t.wcnt.toNat - 1)).toNat ≤ 4 * t.wcnt.toNat → t.err = 0#4) ∧
    (¬ emptyInput i s → ¬ overCapacity i s → ¬ (i = .unpackL ∨ i = .decrypt) → t.err = 0#4)

/-- R208: a command that ends in an error sets `OUTLEN <- 0`, writes no byte of OBUF, and, but for CORRUPT_DATA of DECRYPT, changes
only STATUS and OUTLEN. -/
def Obligations.ErrorChangesOnlyStatusAndOutlen : Prop :=
  ∀ (i : Instr) (s t : State), s.capacityInv = true → exec i s = .next t → t.err ≠ 0#4 →
    t.outlen = 0#32 ∧ (∀ j, t.byteAt .obuf j = s.byteAt .obuf j) ∧
    (¬ (i = .decrypt ∧ t.err = 2#4) → t = { s with outlen := 0#32, err := t.err, done := true, busy := false })

/-- R200: a failed command issued again fails again with the same code. -/
def Obligations.FailedCommandFailsAgain : Prop :=
  ∀ (i : Instr) (s t u : State), s.capacityInv = true → exec i s = .next t → t.err ≠ 0#4 →
    exec i (t.issue (encode i)) = .next u → u.err = t.err

/-- R37, R38, R31, R34: no command writes KBUF or IBUF, and none but SRST changes LEN or KLEN. -/
def Obligations.CommandsNeverWriteTheirInputs : Prop :=
  ∀ (i : Instr) (s t : State), s.capacityInv = true → exec i s = .next t →
    (∀ j < 16, t.byteAt .kbuf j = s.byteAt .kbuf j) ∧ (∀ j < 4 * s.wmax, t.byteAt .ibuf j = s.byteAt .ibuf j) ∧
    (i ≠ .srst → t.len = s.len ∧ t.klen = s.klen)

/-! ### The host port (20_memory.md) -/

/-- R69: an access completes exactly when it is legal by R63 to R65 and R68; otherwise it is a bus error. -/
def Obligations.AccessesCompleteExactlyWhenLegal : Prop :=
  ∀ (s : State) (off : Nat) (size : AccessSize) (v : Word), s.capacityInv = true →
    ((∃ r, s.memRead off size = some r) ↔ readLegal s.wmax off size = true) ∧
    ((∃ t, s.memWrite off size v = some t) ↔ writeLegal s.wmax off size = true)

/-- R65, R67, R71: a legal write to a buffer stores the bytes of the value, little-endian (R62), at the access's offsets, changes no
other byte and no register, and a read of the same unit returns the value's low bytes. -/
def Obligations.BufferWriteStoresItsBytes : Prop :=
  ∀ (s : State) (off : Nat) (size : AccessSize) (v : Word), s.capacityInv = true → 0x40 ≤ off →
    writeLegal s.wmax off size = true → ∃ t, s.memWrite off size v = some t ∧
      t = { s with mem := t.mem } ∧
      (∀ j < size.bytes, t.cellAt (off + j) = byteOf v j) ∧
      (∀ a, ¬ (off ≤ a ∧ a < off + size.bytes) → t.cellAt a = s.cellAt a) ∧
      ∃ r, t.memRead off size = some r ∧ ∀ j < 4, byteOf r j = if j < size.bytes then byteOf v j else 0#8

/-- R73: the byte view of WBUF: a 4-byte read at `0x10000 + 4k` is `WBUF[k]`, a 1-byte read at `0x10000 + 4k + j` its byte `j`, and a
4-byte write at `0x10000 + 4k` writes `WBUF[k]` whole. -/
def Obligations.WbufByteView : Prop :=
  ∀ (s : State) (k j : Nat) (v : Word), s.capacityInv = true → k < s.wmax → j < 4 →
    s.memRead (0x10000 + 4 * k) .word = some (s.wordAt k) ∧
    s.memRead (0x10000 + 4 * k + j) .byte = some ((byteOf (s.wordAt k) j).setWidth 32) ∧
    ∃ t, s.memWrite (0x10000 + 4 * k) .word v = some t ∧ t.wordAt k = v ∧ ∀ k' ≠ k, t.wordAt k' = s.wordAt k'

/-- R22 to R36: what each register reads as. -/
def Obligations.RegisterReads : Prop :=
  ∀ s : State, s.memRead 0x000 .word = some 0x58544541#32 ∧
    (∃ c, s.memRead 0x004 .word = some c ∧ c.extractLsb' 0 16 = BitVec.ofNat 16 s.wmax ∧ c.extractLsb' 16 16 = 0#16) ∧
    s.memRead 0x008 .word = some 0#32 ∧
    s.memRead 0x010 .word = some (if s.ie then 1#32 else 0#32) ∧
    s.memRead 0x014 .word = some s.len ∧ s.memRead 0x018 .word = some s.wcnt ∧ s.memRead 0x01C .word = some s.outlen ∧
    s.memRead 0x020 .word = some (BitVec.ofNat 32 s.klen.toNat) ∧ s.memRead 0x024 .word = some s.rounds ∧
    s.memRead 0x030 .word = some s.key.k0 ∧ s.memRead 0x034 .word = some s.key.k1 ∧
    s.memRead 0x038 .word = some s.key.k2 ∧ s.memRead 0x03C .word = some s.key.k3

/-- R26, R28, R43: the fields of STATUS as read, and a STATUS write: bit 1 set clears DONE, bit 1 clear leaves it, and no other
state changes. -/
def Obligations.StatusFieldsAndWriteOneToClear : Prop :=
  ∀ (s : State) (v : Word), (∃ r, s.memRead 0x00C .word = some r ∧ r.getLsbD 0 = s.busy ∧ r.getLsbD 1 = s.done ∧
      r.extractLsb' 2 2 = 0#2 ∧ r.extractLsb' 4 4 = s.err ∧ r.extractLsb' 8 24 = 0#24) ∧
    s.memWrite 0x00C .word v = some { s with done := if v.getLsbD 1 then false else s.done }

/-- R43: a write to a read-only register is ignored without an error. -/
def Obligations.ReadOnlyRegistersIgnoreWrites : Prop :=
  ∀ (s : State) (v : Word) (off : Nat), off ∈ [0x000, 0x004, 0x01C, 0x024] → s.memWrite off .word v = some s

/-- R34: a write of `v` to KLEN stores `min(v, 16)`, and nothing else changes. -/
def Obligations.KlenClamps : Prop :=
  ∀ (s : State) (v : Word), ∃ t, s.memWrite 0x020 .word v = some t ∧ t = { s with klen := t.klen } ∧
    t.klen.toNat = min v.toNat 16 ∧ t.memRead 0x020 .word = some (BitVec.ofNat 32 (min v.toNat 16))

/-- R30, R31, R32, R36: the other writable registers store the value written (IRQEN its bit 0), and nothing else changes. -/
def Obligations.WritableRegistersStore : Prop :=
  ∀ (s : State) (v : Word),
    s.memWrite 0x010 .word v = some { s with ie := v.getLsbD 0 } ∧
    s.memWrite 0x014 .word v = some { s with len := v } ∧
    s.memWrite 0x018 .word v = some { s with wcnt := v } ∧
    s.memWrite 0x030 .word v = some { s with key := { s.key with k0 := v } } ∧
    s.memWrite 0x034 .word v = some { s with key := { s.key with k1 := v } } ∧
    s.memWrite 0x038 .word v = some { s with key := { s.key with k2 := v } } ∧
    s.memWrite 0x03C .word v = some { s with key := { s.key with k3 := v } }

/-- R211: a host write of `v` to CMD performed while BUSY = 0: `CMDLATCH <- v; BUSY <- 1; DONE <- 0; ERR <- 0`, whatever `v` is; one that
arrives while BUSY = 1 is held: unless the move is the platform's reset, a step leaves it the host's next access and does not take
it in. Whose move it is, is the model's schedule (log 5). -/
def Obligations.CmdWriteIssues : Prop :=
  ∀ (s : State) (v : Word) (rest : List HostOp), s.host = .write 0x008#18 .word v :: rest →
    (s.busy = false → s.mover = some .host →
      step s = .next { s with
        turns := s.turns.tail, host := rest, cmdLatch := v, busy := true, done := false, err := 0#4 }) ∧
    (s.busy = true → s.mover ≠ some .platform →
      ∃ t, step s = .next t ∧ t.host = s.host ∧ (t.cmdLatch = s.cmdLatch ∨ t.cmdLatch = 0#32))

/-- R66, R67, R72, R75: when the host moves, its next access, if it completes, is performed: a read gives its data to the host and
changes no state of the block, a write has the whole effect `memWrite` says, and nothing else changes but the turn and the access
used up (log 5, log 6). -/
def Obligations.LegalHostAccessIsPerformed : Prop :=
  ∀ (s : State) (off : BitVec 18) (size : AccessSize) (rest : List HostOp), s.mover = some .host →
    (∀ r : Word, s.host = .read off size :: rest → s.memRead off.toNat size = some r →
      step s = .next { s with turns := s.turns.tail, host := rest, replies := r :: s.replies }) ∧
    (∀ (v : Word) (t : State), s.host = .write off size v :: rest → s.memWrite off.toNat size v = some t →
      step s = .next { t with turns := s.turns.tail, host := rest })

/-- R69: an illegal host access is the fault `BusError(off, size, dir)` of the host agent. -/
def Obligations.IllegalAccessIsABusError : Prop :=
  ∀ (s : State) (off : BitVec 18) (size : AccessSize) (v : Word) (rest : List HostOp), s.capacityInv = true →
    s.mover = some .host →
    (s.host = .read off size :: rest → readLegal s.wmax off.toNat size = false →
      step s = .fault (.busError off size .read)) ∧
    (s.host = .write off size v :: rest → writeLegal s.wmax off.toNat size = false →
      step s = .fault (.busError off size .write))

/-- R70: while BUSY = 1, every host access but a 4-byte STATUS read (and WAIT, which is one) is held: it stays in the queue, returns
no data and raises no bus error, whichever agent moves. That it stays also when the move is a hardware reset is the model's choice
(log 8), and so is WAIT as an operation of the queue (log 9). -/
def Obligations.AccessesAreHeldWhileBusy : Prop :=
  ∀ (s : State) (op : HostOp) (rest : List HostOp), s.busy = true → s.host = op :: rest →
    op ≠ .read 0x00C#18 .word → op ≠ .wait →
    ∃ t, step s = .next t ∧ t.host = s.host ∧ t.replies = s.replies

/-- R70, R247: a STATUS read presented while a command is in flight: if the host moves first it returns 0x00000001; if the engine
moves first the command completes and the read is still to come. The schedule (log 5) admits both. -/
def Obligations.StatusReadDuringCommandAdmitsBothValues : Prop :=
  ∀ (s : State) (rest : List HostOp) (later : List Agent), s.inv = true → s.busy = true → s.inReset = false →
    s.host = .read 0x00C#18 .word :: rest →
    step { s with turns := .host :: later } =
      .next { s with turns := later, host := rest, replies := 0x00000001#32 :: s.replies } ∧
    ∃ t, step { s with turns := .engine :: later } = .next t ∧ t.busy = false ∧ t.host = s.host ∧ t.replies = s.replies

/-! ### Whole-machine rules -/

/-- R212: every issued command completes: with RST_N released and no reset to come, some step after at most as many as the schedule
has turns, and one more, leaves BUSY = 0. -/
def Obligations.IssuedCommandCompletes : Prop :=
  ∀ s : State, s.busy = true → s.inReset = false → s.pins = [] →
    ∃ k t, k ≤ s.turns.length + 1 ∧ core.run k s = .next t ∧ t.busy = false

/-- R28, R214: DONE rises only at the engine's completion of a command in flight, other than SRST. -/
def Obligations.DoneRisesOnlyByCompletion : Prop :=
  ∀ s t : State, step s = .next t → s.done = false → t.done = true →
    s.busy = true ∧ t.busy = false ∧ s.mover = some .engine ∧ decode s.cmdLatch ≠ .ok .srst

/-- R213: IRQ is DONE AND IE: after a command other than SRST it is IE, after SRST it is 0, and clearing DONE or IE clears it. -/
def Obligations.IrqFollowsDoneAndEnable : Prop :=
  (∀ s : State, s.irq = true ↔ s.done = true ∧ s.ie = true) ∧
  (∀ (i : Instr) (s t : State), exec i s = .next t → (i ≠ .srst → t.irq = s.ie) ∧ (i = .srst → t.irq = false)) ∧
  (∀ (s t : State) (v : Word), s.memWrite 0x00C .word v = some t → v.getLsbD 1 = true → t.irq = false) ∧
  (∀ (s t : State) (v : Word), s.memWrite 0x010 .word v = some t → v.getLsbD 0 = false → t.irq = false ∧ t.done = s.done)

/-- The invariant of the machine (Safety.lean) is kept by every step, from every state that has it, and no step changes WMAX (R5,
R24). -/
def Obligations.StepKeepsTheInvariant : Prop :=
  ∀ s t : State, step s = .next t → t.wmax = s.wmax ∧ (s.inv = true → t.inv = true)

/-- The invariant holds right after hardware reset. -/
def Obligations.ResetHasTheInvariant : Prop := State.reset.inv = true

/-- R69, R200: a machine whose host makes only legal accesses never stops: every step answers a next state, whose host again makes
only legal accesses, so no command, no reset and no waiting ends a run. -/
def Obligations.LegalHostRunsSafely : Prop :=
  (∀ s : State, s.capacityInv = true → s.hostLegal = true →
    ∃ t, step s = .next t ∧ t.capacityInv = true ∧ t.hostLegal = true) ∧
  (∀ (s : State) (k : Nat), s.capacityInv = true → s.hostLegal = true → s.runsSafely k)

/-- R38, R40: of the four buffers a host write reaches KBUF, WBUF and IBUF only, so a step that changes a byte of OBUF is the engine's
or a hardware reset. -/
def Obligations.OnlyTheEngineWritesObuf : Prop :=
  ∀ (s t : State) (j : Nat), s.capacityInv = true → step s = .next t → s.mover ≠ some .engine → t.draw = s.draw →
    t.byteAt .obuf j = s.byteAt .obuf j

/-! ### Reset (70_reset_and_hazards.md) -/

/-- R240, R242: when RST_N is asserted, also during a command, every register takes its reset value, no byte of a buffer is listed
(each is a fresh draw, log 1, log 2) and no completion is signalled. When RST_N is released the same holds, and the port answers
again: the host can make its next access. That the host's queue waits through both, and that both draw anew, is log 8. -/
def Obligations.HardwareResetAbandonsTheCommand : Prop :=
  ∀ (s : State) (rest : List PinEvent) (asserted : Bool), s.mover = some .platform →
    s.pins = (if asserted then .assertReset else .releaseReset) :: rest →
    ∃ t, step s = .next t ∧ t.irq = false ∧ t.canMove .engine = false ∧
      (t.canMove .host = true ↔ asserted = false ∧ s.host ≠ []) ∧
      t = { s with
        turns := s.turns.tail, pins := rest, inReset := asserted, mem := [], draw := s.draw + 1,
        cmdLatch := 0#32, busy := false, done := false, err := 0#4, ie := false, len := 0#32, wcnt := 0#32, outlen := 0#32,
        klen := 0#5, rounds := 0#32, key := { k0 := 0#32, k1 := 0#32, k2 := 0#32, k3 := 0#32 } }

/-- R240, I13: while RST_N is asserted no host access is answered and the engine does not move. -/
def Obligations.NothingIsAnsweredDuringReset : Prop :=
  ∀ s : State, s.inReset = true → ∃ t, step s = .next t ∧ t.host = s.host ∧ t.replies = s.replies ∧
    (s.pins = [] → t = { s with turns := s.turns.tail })

/-- R46, R240: what the port shows right after hardware reset, in the reference configuration WMAX = 256 (R5). -/
def Obligations.ResetValues : Prop :=
  State.reset.memRead 0x000 .word = some 0x58544541#32 ∧ State.reset.memRead 0x004 .word = some 0x00000100#32 ∧
  State.reset.cmdLatch = 0#32 ∧ State.reset.irq = false ∧ State.reset.mem = [] ∧
  ∀ off ∈ [0x00C, 0x010, 0x014, 0x018, 0x01C, 0x020, 0x024, 0x030, 0x034, 0x038, 0x03C],
    State.reset.memRead off .word = some 0#32

/-- R244: every command is defined on the reset state, for every legal WMAX (R5) and every draw of the buffers' bytes. -/
def Obligations.CommandsOnTheResetState : Prop :=
  ∀ (wmax draw : Nat) (s : State), Config.wmaxOk wmax = true → s = { State.reset with wmax := wmax, draw := draw } →
    (∀ i : Instr, ∃ t, exec i s = .next t) ∧
    (∃ t, exec .keypack s = .next t ∧ t.err = 0#4 ∧ t.key = { k0 := 0#32, k1 := 0#32, k2 := 0#32, k3 := 0#32 }) ∧
    (∀ i ∈ [Instr.encrypt, .decrypt, .encr, .decr, .unpackL], ∃ t, exec i s = .next t ∧ t.err = 1#4) ∧
    (∃ t, exec .unpack s = .next t ∧ t.err = 0#4 ∧ t.outlen = 0#32)

/-- R222: between commands the block is idle: with no access and no reset to come, a step changes nothing (but the model's own
schedule, log 5). -/
def Obligations.IdleStepChangesNothing : Prop :=
  ∀ s : State, s.busy = false → s.host = [] → s.pins = [] → step s = .next { s with turns := s.turns.tail }

/-! ### Host scripts (30_encoding.md) -/

/-- R97, R99: the mnemonics are exactly the eleven, each read in every spelling by case, and `CMD m` writes the command word of
R93. -/
def Obligations.ScriptMnemonicsAndCmd : Prop :=
  (∀ (t : List Char) (i : Instr), readMnemonic t = some i ↔ (t.map Char.toUpper, i) ∈
    [(['N', 'O', 'P'], Instr.nop), (['P', 'A', 'C', 'K'], .pack), (['P', 'A', 'C', 'K', '.', 'L'], .packL),
     (['U', 'N', 'P', 'A', 'C', 'K'], .unpack), (['U', 'N', 'P', 'A', 'C', 'K', '.', 'L'], .unpackL),
     (['K', 'E', 'Y', 'P', 'A', 'C', 'K'], .keypack), (['E', 'N', 'C', 'R'], .encr), (['D', 'E', 'C', 'R'], .decr),
     (['E', 'N', 'C', 'R', 'Y', 'P', 'T'], .encrypt), (['D', 'E', 'C', 'R', 'Y', 'P', 'T'], .decrypt),
     (['S', 'R', 'S', 'T'], .srst)]) ∧
  (∀ i : Instr, (ScriptLine.cmd i).expand = [.write 0x008#18 .word (encode i)])
end

