-- ==== Sys2Proof/Laws/Memory.lean ====
section
/-! SUPPORT. The memory list: a lookup after an update, and the canonical form is kept. -/

namespace Sys2Proof.Machine

@[simp] theorem Memory.get?_nil (k : Nat) : Memory.get? [] k = none := rfl

/-- What an update does to every lookup. -/
theorem Memory.get?_set (m : Memory) (k : Nat) (v : Byte) (j : Nat) :
    (m.set k v).get? j = if j = k then some v else m.get? j := by
  induction m with
  | nil => simp [Memory.set, Memory.get?, eq_comm]
  | cons c m ih =>
    simp only [Memory.set]
    by_cases hlt : k < c.1
    · rw [if_pos hlt]
      simp only [Memory.get?, eq_comm (a := k) (b := j)]
    · rw [if_neg hlt]
      by_cases heq : k = c.1
      · rw [if_pos heq]
        simp only [Memory.get?, eq_comm (a := k) (b := j)]
        by_cases hj : j = k
        · rw [if_pos hj, if_pos hj]
        · rw [if_neg hj, if_neg hj, if_neg (by omega)]
      · rw [if_neg heq]
        simp only [Memory.get?, ih]
        by_cases hj : j = k
        · rw [if_pos hj, if_pos hj, if_neg (by omega)]
        · rw [if_neg hj, if_neg hj]

@[simp] theorem Memory.get?_set_self (m : Memory) (k : Nat) (v : Byte) : (m.set k v).get? k = some v := by
  simp [Memory.get?_set]

theorem Memory.above_set {m : Memory} {a k : Nat} {v : Byte} (hm : Memory.above a m = true) (hk : a < k) :
    Memory.above a (m.set k v) = true := by
  cases m with
  | nil => simpa [Memory.set, Memory.above] using hk
  | cons c m =>
    simp only [Memory.set]
    split
    · simpa [Memory.above] using hk
    · split <;> simpa [Memory.above] using by first | exact hk | simpa [Memory.above] using hm

/-- An update keeps the canonical form. -/
theorem Memory.wf_set {m : Memory} (h : m.wf = true) (k : Nat) (v : Byte) : (m.set k v).wf = true := by
  induction m with
  | nil => rfl
  | cons c m ih =>
    simp only [Memory.wf, Bool.and_eq_true] at h
    simp only [Memory.set]
    split
    · rename_i hk
      simp only [Memory.wf, Memory.above, Bool.and_eq_true, decide_eq_true_eq]
      exact ⟨hk, h.1, h.2⟩
    · split
      · rename_i hk
        subst hk
        simp only [Memory.wf, Bool.and_eq_true]
        exact h
      · rename_i h1 h2
        simp only [Memory.wf, Bool.and_eq_true]
        exact ⟨Memory.above_set h.1 (by omega), ih h.2⟩

/-- An update lists no offset but the old ones and its own. -/
theorem Memory.all_set {m : Memory} {p : Host.Cell → Bool} (h : m.all p = true) {k : Nat} {v : Byte} (hk : p (k, v) = true) :
    (m.set k v).all p = true := by
  induction m with
  | nil => simp [Memory.set, hk]
  | cons c m ih =>
    simp only [List.all_cons, Bool.and_eq_true] at h
    simp only [Memory.set]
    split
    · simp [hk, h.1, h.2]
    · split
      · simp [hk, h.2]
      · simp [h.1, ih h.2]

/-- With the canonical form, equal lookups are equal lists: one content, one list. -/
theorem Memory.above_get? {m : Memory} {a : Nat} (hw : m.wf = true) (ha : Memory.above a m = true) {k : Nat} (hk : k ≤ a) :
    m.get? k = none := by
  induction m generalizing a with
  | nil => rfl
  | cons c m ih =>
    simp only [Memory.above, decide_eq_true_eq] at ha
    simp only [Memory.wf, Bool.and_eq_true] at hw
    simp only [Memory.get?]
    rw [if_neg (by omega)]
    exact ih hw.2 hw.1 (by omega)

theorem Memory.ext_of_wf {m n : Memory} (hm : m.wf = true) (hn : n.wf = true) (h : ∀ k, m.get? k = n.get? k) : m = n := by
  induction m generalizing n with
  | nil =>
    cases n with
    | nil => rfl
    | cons d n => simpa [Memory.get?] using h d.1
  | cons c m ih =>
    cases n with
    | nil => simpa [Memory.get?] using h c.1
    | cons d n =>
      simp only [Memory.wf, Bool.and_eq_true] at hm hn
      have hcd : c.1 = d.1 := by
        have h1 := h c.1
        have h2 := h d.1
        simp only [Memory.get?, if_pos] at h1 h2
        by_cases hlt : c.1 < d.1
        · rw [if_neg (by omega), Memory.above_get? hn.2 hn.1 (by omega)] at h1
          exact absurd h1 (by simp)
        · by_cases hgt : d.1 < c.1
          · rw [if_neg (by omega), Memory.above_get? hm.2 hm.1 (by omega)] at h2
            exact absurd h2 (by simp)
          · omega
      have hv : c.2 = d.2 := by
        have h1 := h c.1
        simp only [Memory.get?, if_pos, hcd] at h1
        simpa using h1
      have htail : m = n := by
        apply ih hm.2 hn.2
        intro k
        by_cases hk : k ≤ c.1
        · rw [Memory.above_get? hm.2 hm.1 hk, Memory.above_get? hn.2 hn.1 (by omega)]
        · have h1 := h k
          simp only [Memory.get?] at h1
          rwa [if_neg (by omega), if_neg (by omega)] at h1
      obtain ⟨c1, c2⟩ := c
      obtain ⟨d1, d2⟩ := d
      simp only at hcd hv
      rw [hcd, hv, htail]

end Sys2Proof.Machine
end

