-- ==== Sys2Proof/Laws/State.lean ====
section
/-! SUPPORT. One lemma per field for each update of the state, true by `rfl` (by induction for the store of many bytes), so that no
later proof unfolds a record update. -/

namespace Sys2Proof.Machine

/-! ### issue -/

@[simp] theorem State.issue_wmax (s : State) (v : Word) : (s.issue v).wmax = s.wmax := rfl
@[simp] theorem State.issue_cmdLatch (s : State) (v : Word) : (s.issue v).cmdLatch = v := rfl
@[simp] theorem State.issue_busy (s : State) (v : Word) : (s.issue v).busy = true := rfl
@[simp] theorem State.issue_done (s : State) (v : Word) : (s.issue v).done = false := rfl
@[simp] theorem State.issue_err (s : State) (v : Word) : (s.issue v).err = 0#4 := rfl
@[simp] theorem State.issue_ie (s : State) (v : Word) : (s.issue v).ie = s.ie := rfl
@[simp] theorem State.issue_len (s : State) (v : Word) : (s.issue v).len = s.len := rfl
@[simp] theorem State.issue_wcnt (s : State) (v : Word) : (s.issue v).wcnt = s.wcnt := rfl
@[simp] theorem State.issue_outlen (s : State) (v : Word) : (s.issue v).outlen = s.outlen := rfl
@[simp] theorem State.issue_klen (s : State) (v : Word) : (s.issue v).klen = s.klen := rfl
@[simp] theorem State.issue_rounds (s : State) (v : Word) : (s.issue v).rounds = s.rounds := rfl
@[simp] theorem State.issue_key (s : State) (v : Word) : (s.issue v).key = s.key := rfl
@[simp] theorem State.issue_mem (s : State) (v : Word) : (s.issue v).mem = s.mem := rfl
@[simp] theorem State.issue_draw (s : State) (v : Word) : (s.issue v).draw = s.draw := rfl
@[simp] theorem State.issue_inReset (s : State) (v : Word) : (s.issue v).inReset = s.inReset := rfl
@[simp] theorem State.issue_pins (s : State) (v : Word) : (s.issue v).pins = s.pins := rfl
@[simp] theorem State.issue_host (s : State) (v : Word) : (s.issue v).host = s.host := rfl
@[simp] theorem State.issue_replies (s : State) (v : Word) : (s.issue v).replies = s.replies := rfl
@[simp] theorem State.issue_turns (s : State) (v : Word) : (s.issue v).turns = s.turns := rfl

/-! ### complete -/

@[simp] theorem State.complete_wmax (s : State) (e : ErrorCode) : (s.complete e).wmax = s.wmax := rfl
@[simp] theorem State.complete_cmdLatch (s : State) (e : ErrorCode) : (s.complete e).cmdLatch = s.cmdLatch := rfl
@[simp] theorem State.complete_busy (s : State) (e : ErrorCode) : (s.complete e).busy = false := rfl
@[simp] theorem State.complete_done (s : State) (e : ErrorCode) : (s.complete e).done = true := rfl
@[simp] theorem State.complete_err (s : State) (e : ErrorCode) : (s.complete e).err = e.code := rfl
@[simp] theorem State.complete_ie (s : State) (e : ErrorCode) : (s.complete e).ie = s.ie := rfl
@[simp] theorem State.complete_len (s : State) (e : ErrorCode) : (s.complete e).len = s.len := rfl
@[simp] theorem State.complete_wcnt (s : State) (e : ErrorCode) : (s.complete e).wcnt = s.wcnt := rfl
@[simp] theorem State.complete_outlen (s : State) (e : ErrorCode) : (s.complete e).outlen = s.outlen := rfl
@[simp] theorem State.complete_klen (s : State) (e : ErrorCode) : (s.complete e).klen = s.klen := rfl
@[simp] theorem State.complete_rounds (s : State) (e : ErrorCode) : (s.complete e).rounds = s.rounds := rfl
@[simp] theorem State.complete_key (s : State) (e : ErrorCode) : (s.complete e).key = s.key := rfl
@[simp] theorem State.complete_mem (s : State) (e : ErrorCode) : (s.complete e).mem = s.mem := rfl
@[simp] theorem State.complete_draw (s : State) (e : ErrorCode) : (s.complete e).draw = s.draw := rfl
@[simp] theorem State.complete_inReset (s : State) (e : ErrorCode) : (s.complete e).inReset = s.inReset := rfl
@[simp] theorem State.complete_pins (s : State) (e : ErrorCode) : (s.complete e).pins = s.pins := rfl
@[simp] theorem State.complete_host (s : State) (e : ErrorCode) : (s.complete e).host = s.host := rfl
@[simp] theorem State.complete_replies (s : State) (e : ErrorCode) : (s.complete e).replies = s.replies := rfl
@[simp] theorem State.complete_turns (s : State) (e : ErrorCode) : (s.complete e).turns = s.turns := rfl

/-! ### raise -/

@[simp] theorem State.raise_wmax (s : State) (e : ErrorCode) : (s.raise e).wmax = s.wmax := rfl
@[simp] theorem State.raise_cmdLatch (s : State) (e : ErrorCode) : (s.raise e).cmdLatch = s.cmdLatch := rfl
@[simp] theorem State.raise_busy (s : State) (e : ErrorCode) : (s.raise e).busy = false := rfl
@[simp] theorem State.raise_done (s : State) (e : ErrorCode) : (s.raise e).done = true := rfl
@[simp] theorem State.raise_err (s : State) (e : ErrorCode) : (s.raise e).err = e.code := rfl
@[simp] theorem State.raise_ie (s : State) (e : ErrorCode) : (s.raise e).ie = s.ie := rfl
@[simp] theorem State.raise_len (s : State) (e : ErrorCode) : (s.raise e).len = s.len := rfl
@[simp] theorem State.raise_wcnt (s : State) (e : ErrorCode) : (s.raise e).wcnt = s.wcnt := rfl
@[simp] theorem State.raise_outlen (s : State) (e : ErrorCode) : (s.raise e).outlen = 0#32 := rfl
@[simp] theorem State.raise_klen (s : State) (e : ErrorCode) : (s.raise e).klen = s.klen := rfl
@[simp] theorem State.raise_rounds (s : State) (e : ErrorCode) : (s.raise e).rounds = s.rounds := rfl
@[simp] theorem State.raise_key (s : State) (e : ErrorCode) : (s.raise e).key = s.key := rfl
@[simp] theorem State.raise_mem (s : State) (e : ErrorCode) : (s.raise e).mem = s.mem := rfl
@[simp] theorem State.raise_draw (s : State) (e : ErrorCode) : (s.raise e).draw = s.draw := rfl
@[simp] theorem State.raise_inReset (s : State) (e : ErrorCode) : (s.raise e).inReset = s.inReset := rfl
@[simp] theorem State.raise_pins (s : State) (e : ErrorCode) : (s.raise e).pins = s.pins := rfl
@[simp] theorem State.raise_host (s : State) (e : ErrorCode) : (s.raise e).host = s.host := rfl
@[simp] theorem State.raise_replies (s : State) (e : ErrorCode) : (s.raise e).replies = s.replies := rfl
@[simp] theorem State.raise_turns (s : State) (e : ErrorCode) : (s.raise e).turns = s.turns := rfl

/-! ### writeStatus -/

@[simp] theorem State.writeStatus_wmax (s : State) (v : Word) : (s.writeStatus v).wmax = s.wmax := rfl
@[simp] theorem State.writeStatus_cmdLatch (s : State) (v : Word) : (s.writeStatus v).cmdLatch = s.cmdLatch := rfl
@[simp] theorem State.writeStatus_busy (s : State) (v : Word) : (s.writeStatus v).busy = s.busy := rfl
@[simp] theorem State.writeStatus_done (s : State) (v : Word) : (s.writeStatus v).done = (s.done && !v.getLsbD 1) := rfl
@[simp] theorem State.writeStatus_err (s : State) (v : Word) : (s.writeStatus v).err = s.err := rfl
@[simp] theorem State.writeStatus_ie (s : State) (v : Word) : (s.writeStatus v).ie = s.ie := rfl
@[simp] theorem State.writeStatus_len (s : State) (v : Word) : (s.writeStatus v).len = s.len := rfl
@[simp] theorem State.writeStatus_wcnt (s : State) (v : Word) : (s.writeStatus v).wcnt = s.wcnt := rfl
@[simp] theorem State.writeStatus_outlen (s : State) (v : Word) : (s.writeStatus v).outlen = s.outlen := rfl
@[simp] theorem State.writeStatus_klen (s : State) (v : Word) : (s.writeStatus v).klen = s.klen := rfl
@[simp] theorem State.writeStatus_rounds (s : State) (v : Word) : (s.writeStatus v).rounds = s.rounds := rfl
@[simp] theorem State.writeStatus_key (s : State) (v : Word) : (s.writeStatus v).key = s.key := rfl
@[simp] theorem State.writeStatus_mem (s : State) (v : Word) : (s.writeStatus v).mem = s.mem := rfl
@[simp] theorem State.writeStatus_draw (s : State) (v : Word) : (s.writeStatus v).draw = s.draw := rfl
@[simp] theorem State.writeStatus_inReset (s : State) (v : Word) : (s.writeStatus v).inReset = s.inReset := rfl
@[simp] theorem State.writeStatus_pins (s : State) (v : Word) : (s.writeStatus v).pins = s.pins := rfl
@[simp] theorem State.writeStatus_host (s : State) (v : Word) : (s.writeStatus v).host = s.host := rfl
@[simp] theorem State.writeStatus_replies (s : State) (v : Word) : (s.writeStatus v).replies = s.replies := rfl
@[simp] theorem State.writeStatus_turns (s : State) (v : Word) : (s.writeStatus v).turns = s.turns := rfl

/-! ### resetRegs -/

@[simp] theorem State.resetRegs_wmax (s : State) : (s.resetRegs).wmax = s.wmax := rfl
@[simp] theorem State.resetRegs_cmdLatch (s : State) : (s.resetRegs).cmdLatch = 0#32 := rfl
@[simp] theorem State.resetRegs_busy (s : State) : (s.resetRegs).busy = false := rfl
@[simp] theorem State.resetRegs_done (s : State) : (s.resetRegs).done = false := rfl
@[simp] theorem State.resetRegs_err (s : State) : (s.resetRegs).err = 0#4 := rfl
@[simp] theorem State.resetRegs_ie (s : State) : (s.resetRegs).ie = false := rfl
@[simp] theorem State.resetRegs_len (s : State) : (s.resetRegs).len = 0#32 := rfl
@[simp] theorem State.resetRegs_wcnt (s : State) : (s.resetRegs).wcnt = 0#32 := rfl
@[simp] theorem State.resetRegs_outlen (s : State) : (s.resetRegs).outlen = 0#32 := rfl
@[simp] theorem State.resetRegs_klen (s : State) : (s.resetRegs).klen = 0#5 := rfl
@[simp] theorem State.resetRegs_rounds (s : State) : (s.resetRegs).rounds = 0#32 := rfl
@[simp] theorem State.resetRegs_key (s : State) : (s.resetRegs).key = { k0 := 0#32, k1 := 0#32, k2 := 0#32, k3 := 0#32 } := rfl
@[simp] theorem State.resetRegs_mem (s : State) : (s.resetRegs).mem = s.mem := rfl
@[simp] theorem State.resetRegs_draw (s : State) : (s.resetRegs).draw = s.draw := rfl
@[simp] theorem State.resetRegs_inReset (s : State) : (s.resetRegs).inReset = s.inReset := rfl
@[simp] theorem State.resetRegs_pins (s : State) : (s.resetRegs).pins = s.pins := rfl
@[simp] theorem State.resetRegs_host (s : State) : (s.resetRegs).host = s.host := rfl
@[simp] theorem State.resetRegs_replies (s : State) : (s.resetRegs).replies = s.replies := rfl
@[simp] theorem State.resetRegs_turns (s : State) : (s.resetRegs).turns = s.turns := rfl

/-! ### hardwareReset -/

@[simp] theorem State.hardwareReset_wmax (s : State) : (s.hardwareReset).wmax = s.wmax := rfl
@[simp] theorem State.hardwareReset_cmdLatch (s : State) : (s.hardwareReset).cmdLatch = 0#32 := rfl
@[simp] theorem State.hardwareReset_busy (s : State) : (s.hardwareReset).busy = false := rfl
@[simp] theorem State.hardwareReset_done (s : State) : (s.hardwareReset).done = false := rfl
@[simp] theorem State.hardwareReset_err (s : State) : (s.hardwareReset).err = 0#4 := rfl
@[simp] theorem State.hardwareReset_ie (s : State) : (s.hardwareReset).ie = false := rfl
@[simp] theorem State.hardwareReset_len (s : State) : (s.hardwareReset).len = 0#32 := rfl
@[simp] theorem State.hardwareReset_wcnt (s : State) : (s.hardwareReset).wcnt = 0#32 := rfl
@[simp] theorem State.hardwareReset_outlen (s : State) : (s.hardwareReset).outlen = 0#32 := rfl
@[simp] theorem State.hardwareReset_klen (s : State) : (s.hardwareReset).klen = 0#5 := rfl
@[simp] theorem State.hardwareReset_rounds (s : State) : (s.hardwareReset).rounds = 0#32 := rfl
@[simp] theorem State.hardwareReset_key (s : State) : (s.hardwareReset).key = { k0 := 0#32, k1 := 0#32, k2 := 0#32, k3 := 0#32 } := rfl
@[simp] theorem State.hardwareReset_mem (s : State) : (s.hardwareReset).mem = [] := rfl
@[simp] theorem State.hardwareReset_draw (s : State) : (s.hardwareReset).draw = s.draw + 1 := rfl
@[simp] theorem State.hardwareReset_inReset (s : State) : (s.hardwareReset).inReset = s.inReset := rfl
@[simp] theorem State.hardwareReset_pins (s : State) : (s.hardwareReset).pins = s.pins := rfl
@[simp] theorem State.hardwareReset_host (s : State) : (s.hardwareReset).host = s.host := rfl
@[simp] theorem State.hardwareReset_replies (s : State) : (s.hardwareReset).replies = s.replies := rfl
@[simp] theorem State.hardwareReset_turns (s : State) : (s.hardwareReset).turns = s.turns := rfl

/-! ### setCell -/

@[simp] theorem State.setCell_wmax (s : State) (a : Nat) (v : Byte) : (s.setCell a v).wmax = s.wmax := rfl
@[simp] theorem State.setCell_cmdLatch (s : State) (a : Nat) (v : Byte) : (s.setCell a v).cmdLatch = s.cmdLatch := rfl
@[simp] theorem State.setCell_busy (s : State) (a : Nat) (v : Byte) : (s.setCell a v).busy = s.busy := rfl
@[simp] theorem State.setCell_done (s : State) (a : Nat) (v : Byte) : (s.setCell a v).done = s.done := rfl
@[simp] theorem State.setCell_err (s : State) (a : Nat) (v : Byte) : (s.setCell a v).err = s.err := rfl
@[simp] theorem State.setCell_ie (s : State) (a : Nat) (v : Byte) : (s.setCell a v).ie = s.ie := rfl
@[simp] theorem State.setCell_len (s : State) (a : Nat) (v : Byte) : (s.setCell a v).len = s.len := rfl
@[simp] theorem State.setCell_wcnt (s : State) (a : Nat) (v : Byte) : (s.setCell a v).wcnt = s.wcnt := rfl
@[simp] theorem State.setCell_outlen (s : State) (a : Nat) (v : Byte) : (s.setCell a v).outlen = s.outlen := rfl
@[simp] theorem State.setCell_klen (s : State) (a : Nat) (v : Byte) : (s.setCell a v).klen = s.klen := rfl
@[simp] theorem State.setCell_rounds (s : State) (a : Nat) (v : Byte) : (s.setCell a v).rounds = s.rounds := rfl
@[simp] theorem State.setCell_key (s : State) (a : Nat) (v : Byte) : (s.setCell a v).key = s.key := rfl
@[simp] theorem State.setCell_mem (s : State) (a : Nat) (v : Byte) : (s.setCell a v).mem = s.mem.set a v := rfl
@[simp] theorem State.setCell_draw (s : State) (a : Nat) (v : Byte) : (s.setCell a v).draw = s.draw := rfl
@[simp] theorem State.setCell_inReset (s : State) (a : Nat) (v : Byte) : (s.setCell a v).inReset = s.inReset := rfl
@[simp] theorem State.setCell_pins (s : State) (a : Nat) (v : Byte) : (s.setCell a v).pins = s.pins := rfl
@[simp] theorem State.setCell_host (s : State) (a : Nat) (v : Byte) : (s.setCell a v).host = s.host := rfl
@[simp] theorem State.setCell_replies (s : State) (a : Nat) (v : Byte) : (s.setCell a v).replies = s.replies := rfl
@[simp] theorem State.setCell_turns (s : State) (a : Nat) (v : Byte) : (s.setCell a v).turns = s.turns := rfl

/-! ### packKey -/

@[simp] theorem State.packKey_wmax (s : State) : (s.packKey).wmax = s.wmax := rfl
@[simp] theorem State.packKey_cmdLatch (s : State) : (s.packKey).cmdLatch = s.cmdLatch := rfl
@[simp] theorem State.packKey_busy (s : State) : (s.packKey).busy = s.busy := rfl
@[simp] theorem State.packKey_done (s : State) : (s.packKey).done = s.done := rfl
@[simp] theorem State.packKey_err (s : State) : (s.packKey).err = s.err := rfl
@[simp] theorem State.packKey_ie (s : State) : (s.packKey).ie = s.ie := rfl
@[simp] theorem State.packKey_len (s : State) : (s.packKey).len = s.len := rfl
@[simp] theorem State.packKey_wcnt (s : State) : (s.packKey).wcnt = s.wcnt := rfl
@[simp] theorem State.packKey_outlen (s : State) : (s.packKey).outlen = s.outlen := rfl
@[simp] theorem State.packKey_klen (s : State) : (s.packKey).klen = s.klen := rfl
@[simp] theorem State.packKey_rounds (s : State) : (s.packKey).rounds = s.rounds := rfl
@[simp] theorem State.packKey_key (s : State) : (s.packKey).key = keyWords s.keyBytes s.klen.toNat := rfl
@[simp] theorem State.packKey_mem (s : State) : (s.packKey).mem = s.mem := rfl
@[simp] theorem State.packKey_draw (s : State) : (s.packKey).draw = s.draw := rfl
@[simp] theorem State.packKey_inReset (s : State) : (s.packKey).inReset = s.inReset := rfl
@[simp] theorem State.packKey_pins (s : State) : (s.packKey).pins = s.pins := rfl
@[simp] theorem State.packKey_host (s : State) : (s.packKey).host = s.host := rfl
@[simp] theorem State.packKey_replies (s : State) : (s.packKey).replies = s.replies := rfl
@[simp] theorem State.packKey_turns (s : State) : (s.packKey).turns = s.turns := rfl

/-! ### nextTurn -/

@[simp] theorem State.nextTurn_wmax (s : State) : (s.nextTurn).wmax = s.wmax := rfl
@[simp] theorem State.nextTurn_cmdLatch (s : State) : (s.nextTurn).cmdLatch = s.cmdLatch := rfl
@[simp] theorem State.nextTurn_busy (s : State) : (s.nextTurn).busy = s.busy := rfl
@[simp] theorem State.nextTurn_done (s : State) : (s.nextTurn).done = s.done := rfl
@[simp] theorem State.nextTurn_err (s : State) : (s.nextTurn).err = s.err := rfl
@[simp] theorem State.nextTurn_ie (s : State) : (s.nextTurn).ie = s.ie := rfl
@[simp] theorem State.nextTurn_len (s : State) : (s.nextTurn).len = s.len := rfl
@[simp] theorem State.nextTurn_wcnt (s : State) : (s.nextTurn).wcnt = s.wcnt := rfl
@[simp] theorem State.nextTurn_outlen (s : State) : (s.nextTurn).outlen = s.outlen := rfl
@[simp] theorem State.nextTurn_klen (s : State) : (s.nextTurn).klen = s.klen := rfl
@[simp] theorem State.nextTurn_rounds (s : State) : (s.nextTurn).rounds = s.rounds := rfl
@[simp] theorem State.nextTurn_key (s : State) : (s.nextTurn).key = s.key := rfl
@[simp] theorem State.nextTurn_mem (s : State) : (s.nextTurn).mem = s.mem := rfl
@[simp] theorem State.nextTurn_draw (s : State) : (s.nextTurn).draw = s.draw := rfl
@[simp] theorem State.nextTurn_inReset (s : State) : (s.nextTurn).inReset = s.inReset := rfl
@[simp] theorem State.nextTurn_pins (s : State) : (s.nextTurn).pins = s.pins := rfl
@[simp] theorem State.nextTurn_host (s : State) : (s.nextTurn).host = s.host := rfl
@[simp] theorem State.nextTurn_replies (s : State) : (s.nextTurn).replies = s.replies := rfl
@[simp] theorem State.nextTurn_turns (s : State) : (s.nextTurn).turns = s.turns.tail := rfl

/-! ### storeCells: only the memory changes -/

@[simp] theorem State.storeCells_wmax (vs : List Byte) : ∀ (s : State) (a : Nat), (s.storeCells a vs).wmax = s.wmax := by
  induction vs with
  | nil => intro s a; rfl
  | cons v vs ih => intro s a; simp [State.storeCells, ih]
@[simp] theorem State.storeCells_cmdLatch (vs : List Byte) : ∀ (s : State) (a : Nat), (s.storeCells a vs).cmdLatch = s.cmdLatch := by
  induction vs with
  | nil => intro s a; rfl
  | cons v vs ih => intro s a; simp [State.storeCells, ih]
@[simp] theorem State.storeCells_busy (vs : List Byte) : ∀ (s : State) (a : Nat), (s.storeCells a vs).busy = s.busy := by
  induction vs with
  | nil => intro s a; rfl
  | cons v vs ih => intro s a; simp [State.storeCells, ih]
@[simp] theorem State.storeCells_done (vs : List Byte) : ∀ (s : State) (a : Nat), (s.storeCells a vs).done = s.done := by
  induction vs with
  | nil => intro s a; rfl
  | cons v vs ih => intro s a; simp [State.storeCells, ih]
@[simp] theorem State.storeCells_err (vs : List Byte) : ∀ (s : State) (a : Nat), (s.storeCells a vs).err = s.err := by
  induction vs with
  | nil => intro s a; rfl
  | cons v vs ih => intro s a; simp [State.storeCells, ih]
@[simp] theorem State.storeCells_ie (vs : List Byte) : ∀ (s : State) (a : Nat), (s.storeCells a vs).ie = s.ie := by
  induction vs with
  | nil => intro s a; rfl
  | cons v vs ih => intro s a; simp [State.storeCells, ih]
@[simp] theorem State.storeCells_len (vs : List Byte) : ∀ (s : State) (a : Nat), (s.storeCells a vs).len = s.len := by
  induction vs with
  | nil => intro s a; rfl
  | cons v vs ih => intro s a; simp [State.storeCells, ih]
@[simp] theorem State.storeCells_wcnt (vs : List Byte) : ∀ (s : State) (a : Nat), (s.storeCells a vs).wcnt = s.wcnt := by
  induction vs with
  | nil => intro s a; rfl
  | cons v vs ih => intro s a; simp [State.storeCells, ih]
@[simp] theorem State.storeCells_outlen (vs : List Byte) : ∀ (s : State) (a : Nat), (s.storeCells a vs).outlen = s.outlen := by
  induction vs with
  | nil => intro s a; rfl
  | cons v vs ih => intro s a; simp [State.storeCells, ih]
@[simp] theorem State.storeCells_klen (vs : List Byte) : ∀ (s : State) (a : Nat), (s.storeCells a vs).klen = s.klen := by
  induction vs with
  | nil => intro s a; rfl
  | cons v vs ih => intro s a; simp [State.storeCells, ih]
@[simp] theorem State.storeCells_rounds (vs : List Byte) : ∀ (s : State) (a : Nat), (s.storeCells a vs).rounds = s.rounds := by
  induction vs with
  | nil => intro s a; rfl
  | cons v vs ih => intro s a; simp [State.storeCells, ih]
@[simp] theorem State.storeCells_key (vs : List Byte) : ∀ (s : State) (a : Nat), (s.storeCells a vs).key = s.key := by
  induction vs with
  | nil => intro s a; rfl
  | cons v vs ih => intro s a; simp [State.storeCells, ih]
@[simp] theorem State.storeCells_draw (vs : List Byte) : ∀ (s : State) (a : Nat), (s.storeCells a vs).draw = s.draw := by
  induction vs with
  | nil => intro s a; rfl
  | cons v vs ih => intro s a; simp [State.storeCells, ih]
@[simp] theorem State.storeCells_inReset (vs : List Byte) : ∀ (s : State) (a : Nat), (s.storeCells a vs).inReset = s.inReset := by
  induction vs with
  | nil => intro s a; rfl
  | cons v vs ih => intro s a; simp [State.storeCells, ih]
@[simp] theorem State.storeCells_pins (vs : List Byte) : ∀ (s : State) (a : Nat), (s.storeCells a vs).pins = s.pins := by
  induction vs with
  | nil => intro s a; rfl
  | cons v vs ih => intro s a; simp [State.storeCells, ih]
@[simp] theorem State.storeCells_host (vs : List Byte) : ∀ (s : State) (a : Nat), (s.storeCells a vs).host = s.host := by
  induction vs with
  | nil => intro s a; rfl
  | cons v vs ih => intro s a; simp [State.storeCells, ih]
@[simp] theorem State.storeCells_replies (vs : List Byte) : ∀ (s : State) (a : Nat), (s.storeCells a vs).replies = s.replies := by
  induction vs with
  | nil => intro s a; rfl
  | cons v vs ih => intro s a; simp [State.storeCells, ih]
@[simp] theorem State.storeCells_turns (vs : List Byte) : ∀ (s : State) (a : Nat), (s.storeCells a vs).turns = s.turns := by
  induction vs with
  | nil => intro s a; rfl
  | cons v vs ih => intro s a; simp [State.storeCells, ih]

/-! ### storeWords -/

@[simp] theorem State.storeWords_wmax (s : State) (ws : List Word) : (s.storeWords ws).wmax = s.wmax := by simp [State.storeWords]
@[simp] theorem State.storeWords_cmdLatch (s : State) (ws : List Word) : (s.storeWords ws).cmdLatch = s.cmdLatch := by simp [State.storeWords]
@[simp] theorem State.storeWords_busy (s : State) (ws : List Word) : (s.storeWords ws).busy = s.busy := by simp [State.storeWords]
@[simp] theorem State.storeWords_done (s : State) (ws : List Word) : (s.storeWords ws).done = s.done := by simp [State.storeWords]
@[simp] theorem State.storeWords_err (s : State) (ws : List Word) : (s.storeWords ws).err = s.err := by simp [State.storeWords]
@[simp] theorem State.storeWords_ie (s : State) (ws : List Word) : (s.storeWords ws).ie = s.ie := by simp [State.storeWords]
@[simp] theorem State.storeWords_len (s : State) (ws : List Word) : (s.storeWords ws).len = s.len := by simp [State.storeWords]
@[simp] theorem State.storeWords_wcnt (s : State) (ws : List Word) : (s.storeWords ws).wcnt = s.wcnt := by simp [State.storeWords]
@[simp] theorem State.storeWords_outlen (s : State) (ws : List Word) : (s.storeWords ws).outlen = s.outlen := by simp [State.storeWords]
@[simp] theorem State.storeWords_klen (s : State) (ws : List Word) : (s.storeWords ws).klen = s.klen := by simp [State.storeWords]
@[simp] theorem State.storeWords_rounds (s : State) (ws : List Word) : (s.storeWords ws).rounds = s.rounds := by simp [State.storeWords]
@[simp] theorem State.storeWords_key (s : State) (ws : List Word) : (s.storeWords ws).key = s.key := by simp [State.storeWords]
@[simp] theorem State.storeWords_draw (s : State) (ws : List Word) : (s.storeWords ws).draw = s.draw := by simp [State.storeWords]
@[simp] theorem State.storeWords_inReset (s : State) (ws : List Word) : (s.storeWords ws).inReset = s.inReset := by simp [State.storeWords]
@[simp] theorem State.storeWords_pins (s : State) (ws : List Word) : (s.storeWords ws).pins = s.pins := by simp [State.storeWords]
@[simp] theorem State.storeWords_host (s : State) (ws : List Word) : (s.storeWords ws).host = s.host := by simp [State.storeWords]
@[simp] theorem State.storeWords_replies (s : State) (ws : List Word) : (s.storeWords ws).replies = s.replies := by simp [State.storeWords]
@[simp] theorem State.storeWords_turns (s : State) (ws : List Word) : (s.storeWords ws).turns = s.turns := by simp [State.storeWords]

/-! ### storeOut -/

@[simp] theorem State.storeOut_wmax (s : State) (out : List Byte) : (s.storeOut out).wmax = s.wmax := by simp [State.storeOut]
@[simp] theorem State.storeOut_cmdLatch (s : State) (out : List Byte) : (s.storeOut out).cmdLatch = s.cmdLatch := by simp [State.storeOut]
@[simp] theorem State.storeOut_busy (s : State) (out : List Byte) : (s.storeOut out).busy = s.busy := by simp [State.storeOut]
@[simp] theorem State.storeOut_done (s : State) (out : List Byte) : (s.storeOut out).done = s.done := by simp [State.storeOut]
@[simp] theorem State.storeOut_err (s : State) (out : List Byte) : (s.storeOut out).err = s.err := by simp [State.storeOut]
@[simp] theorem State.storeOut_ie (s : State) (out : List Byte) : (s.storeOut out).ie = s.ie := by simp [State.storeOut]
@[simp] theorem State.storeOut_len (s : State) (out : List Byte) : (s.storeOut out).len = s.len := by simp [State.storeOut]
@[simp] theorem State.storeOut_wcnt (s : State) (out : List Byte) : (s.storeOut out).wcnt = s.wcnt := by simp [State.storeOut]
@[simp] theorem State.storeOut_outlen (s : State) (out : List Byte) : (s.storeOut out).outlen = s.outlen := by simp [State.storeOut]
@[simp] theorem State.storeOut_klen (s : State) (out : List Byte) : (s.storeOut out).klen = s.klen := by simp [State.storeOut]
@[simp] theorem State.storeOut_rounds (s : State) (out : List Byte) : (s.storeOut out).rounds = s.rounds := by simp [State.storeOut]
@[simp] theorem State.storeOut_key (s : State) (out : List Byte) : (s.storeOut out).key = s.key := by simp [State.storeOut]
@[simp] theorem State.storeOut_draw (s : State) (out : List Byte) : (s.storeOut out).draw = s.draw := by simp [State.storeOut]
@[simp] theorem State.storeOut_inReset (s : State) (out : List Byte) : (s.storeOut out).inReset = s.inReset := by simp [State.storeOut]
@[simp] theorem State.storeOut_pins (s : State) (out : List Byte) : (s.storeOut out).pins = s.pins := by simp [State.storeOut]
@[simp] theorem State.storeOut_host (s : State) (out : List Byte) : (s.storeOut out).host = s.host := by simp [State.storeOut]
@[simp] theorem State.storeOut_replies (s : State) (out : List Byte) : (s.storeOut out).replies = s.replies := by simp [State.storeOut]
@[simp] theorem State.storeOut_turns (s : State) (out : List Byte) : (s.storeOut out).turns = s.turns := by simp [State.storeOut]

/-! ### packInput -/

@[simp] theorem State.packInput_wmax (s : State) (l : Bool) : (s.packInput l).wmax = s.wmax := by simp [State.packInput]
@[simp] theorem State.packInput_cmdLatch (s : State) (l : Bool) : (s.packInput l).cmdLatch = s.cmdLatch := by simp [State.packInput]
@[simp] theorem State.packInput_busy (s : State) (l : Bool) : (s.packInput l).busy = s.busy := by simp [State.packInput]
@[simp] theorem State.packInput_done (s : State) (l : Bool) : (s.packInput l).done = s.done := by simp [State.packInput]
@[simp] theorem State.packInput_err (s : State) (l : Bool) : (s.packInput l).err = s.err := by simp [State.packInput]
@[simp] theorem State.packInput_ie (s : State) (l : Bool) : (s.packInput l).ie = s.ie := by simp [State.packInput]
@[simp] theorem State.packInput_len (s : State) (l : Bool) : (s.packInput l).len = s.len := by simp [State.packInput]
@[simp] theorem State.packInput_wcnt (s : State) (l : Bool) : (s.packInput l).wcnt = BitVec.ofNat 32 (packWords s.inputBytes l).length := by simp [State.packInput]
@[simp] theorem State.packInput_outlen (s : State) (l : Bool) : (s.packInput l).outlen = s.outlen := by simp [State.packInput]
@[simp] theorem State.packInput_klen (s : State) (l : Bool) : (s.packInput l).klen = s.klen := by simp [State.packInput]
@[simp] theorem State.packInput_rounds (s : State) (l : Bool) : (s.packInput l).rounds = s.rounds := by simp [State.packInput]
@[simp] theorem State.packInput_key (s : State) (l : Bool) : (s.packInput l).key = s.key := by simp [State.packInput]
@[simp] theorem State.packInput_draw (s : State) (l : Bool) : (s.packInput l).draw = s.draw := by simp [State.packInput]
@[simp] theorem State.packInput_inReset (s : State) (l : Bool) : (s.packInput l).inReset = s.inReset := by simp [State.packInput]
@[simp] theorem State.packInput_pins (s : State) (l : Bool) : (s.packInput l).pins = s.pins := by simp [State.packInput]
@[simp] theorem State.packInput_host (s : State) (l : Bool) : (s.packInput l).host = s.host := by simp [State.packInput]
@[simp] theorem State.packInput_replies (s : State) (l : Bool) : (s.packInput l).replies = s.replies := by simp [State.packInput]
@[simp] theorem State.packInput_turns (s : State) (l : Bool) : (s.packInput l).turns = s.turns := by simp [State.packInput]

/-! ### mixWords: the memory and ROUNDS change -/

@[simp] theorem State.mixWords_wmax (s : State) (r : List Word → KeyWords → List Word) : (s.mixWords r).wmax = s.wmax := by
  unfold State.mixWords; split <;> simp
@[simp] theorem State.mixWords_cmdLatch (s : State) (r : List Word → KeyWords → List Word) : (s.mixWords r).cmdLatch = s.cmdLatch := by
  unfold State.mixWords; split <;> simp
@[simp] theorem State.mixWords_busy (s : State) (r : List Word → KeyWords → List Word) : (s.mixWords r).busy = s.busy := by
  unfold State.mixWords; split <;> simp
@[simp] theorem State.mixWords_done (s : State) (r : List Word → KeyWords → List Word) : (s.mixWords r).done = s.done := by
  unfold State.mixWords; split <;> simp
@[simp] theorem State.mixWords_err (s : State) (r : List Word → KeyWords → List Word) : (s.mixWords r).err = s.err := by
  unfold State.mixWords; split <;> simp
@[simp] theorem State.mixWords_ie (s : State) (r : List Word → KeyWords → List Word) : (s.mixWords r).ie = s.ie := by
  unfold State.mixWords; split <;> simp
@[simp] theorem State.mixWords_len (s : State) (r : List Word → KeyWords → List Word) : (s.mixWords r).len = s.len := by
  unfold State.mixWords; split <;> simp
@[simp] theorem State.mixWords_wcnt (s : State) (r : List Word → KeyWords → List Word) : (s.mixWords r).wcnt = s.wcnt := by
  unfold State.mixWords; split <;> simp
@[simp] theorem State.mixWords_outlen (s : State) (r : List Word → KeyWords → List Word) : (s.mixWords r).outlen = s.outlen := by
  unfold State.mixWords; split <;> simp
@[simp] theorem State.mixWords_klen (s : State) (r : List Word → KeyWords → List Word) : (s.mixWords r).klen = s.klen := by
  unfold State.mixWords; split <;> simp
@[simp] theorem State.mixWords_key (s : State) (r : List Word → KeyWords → List Word) : (s.mixWords r).key = s.key := by
  unfold State.mixWords; split <;> simp
@[simp] theorem State.mixWords_draw (s : State) (r : List Word → KeyWords → List Word) : (s.mixWords r).draw = s.draw := by
  unfold State.mixWords; split <;> simp
@[simp] theorem State.mixWords_inReset (s : State) (r : List Word → KeyWords → List Word) : (s.mixWords r).inReset = s.inReset := by
  unfold State.mixWords; split <;> simp
@[simp] theorem State.mixWords_pins (s : State) (r : List Word → KeyWords → List Word) : (s.mixWords r).pins = s.pins := by
  unfold State.mixWords; split <;> simp
@[simp] theorem State.mixWords_host (s : State) (r : List Word → KeyWords → List Word) : (s.mixWords r).host = s.host := by
  unfold State.mixWords; split <;> simp
@[simp] theorem State.mixWords_replies (s : State) (r : List Word → KeyWords → List Word) : (s.mixWords r).replies = s.replies := by
  unfold State.mixWords; split <;> simp
@[simp] theorem State.mixWords_turns (s : State) (r : List Word → KeyWords → List Word) : (s.mixWords r).turns = s.turns := by
  unfold State.mixWords; split <;> simp

end Sys2Proof.Machine
end

