-- ==== Sys2Proof/Laws/Ops.lean ====
section
/-! SUPPORT. What the shared operations do: bytes and words, the read of a buffer byte after a store, the order of the buffers. -/

namespace Sys2Proof.Machine

/-! ### Bytes of a word -/

theorem byteOf_getLsbD (w : Word) (j i : Nat) : (byteOf w j).getLsbD i = (decide (i < 8) && w.getLsbD (8 * j + i)) := by
  simp [byteOf]

theorem leWord_getLsbD (b0 b1 b2 b3 : Byte) (i : Nat) : (leWord b0 b1 b2 b3).getLsbD i =
    if i < 8 then b0.getLsbD i else if i < 16 then b1.getLsbD (i - 8)
    else if i < 24 then b2.getLsbD (i - 16) else if i < 32 then b3.getLsbD (i - 24) else false := by
  unfold leWord
  simp only [BitVec.getLsbD_or, BitVec.getLsbD_shiftLeft, BitVec.getLsbD_setWidth]
  rcases Nat.lt_or_ge i 8 with h | h
  · simp [h, show i < 32 by omega, show i < 16 by omega, show i < 24 by omega]
  rcases Nat.lt_or_ge i 16 with h2 | h2
  · have : b0.getLsbD i = false := b0.getLsbD_of_ge i h
    simp [h2, show ¬ i < 8 by omega, show i < 32 by omega, show i < 24 by omega, show i - 8 < 32 by omega, this]
  rcases Nat.lt_or_ge i 24 with h3 | h3
  · have h0 : b0.getLsbD i = false := b0.getLsbD_of_ge i h
    have h1 : b1.getLsbD (i - 8) = false := b1.getLsbD_of_ge _ (by omega)
    simp [h3, show ¬ i < 8 by omega, show ¬ i < 16 by omega, show i < 32 by omega, show i - 16 < 32 by omega, h0, h1]
  rcases Nat.lt_or_ge i 32 with h4 | h4
  · have h0 : b0.getLsbD i = false := b0.getLsbD_of_ge i h
    have h1 : b1.getLsbD (i - 8) = false := b1.getLsbD_of_ge _ (by omega)
    have h2' : b2.getLsbD (i - 16) = false := b2.getLsbD_of_ge _ (by omega)
    simp [h4, show ¬ i < 8 by omega, show ¬ i < 16 by omega, show ¬ i < 24 by omega, show i - 24 < 32 by omega, h0, h1, h2']
  · simp [show ¬ i < 8 by omega, show ¬ i < 16 by omega, show ¬ i < 24 by omega, show ¬ i < 32 by omega]

@[simp] theorem byteOf_leWord_zero (b0 b1 b2 b3 : Byte) : byteOf (leWord b0 b1 b2 b3) 0 = b0 := by
  apply BitVec.eq_of_getLsbD_eq
  intro i hi
  rw [byteOf_getLsbD, leWord_getLsbD]
  simp [hi]

@[simp] theorem byteOf_leWord_one (b0 b1 b2 b3 : Byte) : byteOf (leWord b0 b1 b2 b3) 1 = b1 := by
  apply BitVec.eq_of_getLsbD_eq
  intro i hi
  rw [byteOf_getLsbD, leWord_getLsbD]
  simp [hi, show ¬ 8 + i < 8 by omega, show 8 + i < 16 by omega]

@[simp] theorem byteOf_leWord_two (b0 b1 b2 b3 : Byte) : byteOf (leWord b0 b1 b2 b3) 2 = b2 := by
  apply BitVec.eq_of_getLsbD_eq
  intro i hi
  rw [byteOf_getLsbD, leWord_getLsbD]
  simp [hi, show ¬ 16 + i < 8 by omega, show ¬ 16 + i < 16 by omega, show 16 + i < 24 by omega]

@[simp] theorem byteOf_leWord_three (b0 b1 b2 b3 : Byte) : byteOf (leWord b0 b1 b2 b3) 3 = b3 := by
  apply BitVec.eq_of_getLsbD_eq
  intro i hi
  rw [byteOf_getLsbD, leWord_getLsbD]
  simp [hi, show ¬ 24 + i < 8 by omega, show ¬ 24 + i < 16 by omega, show ¬ 24 + i < 24 by omega,
    show 24 + i < 32 by omega]

/-- A word is made of its four bytes. -/
@[simp] theorem leWord_byteOf (w : Word) : leWord (byteOf w 0) (byteOf w 1) (byteOf w 2) (byteOf w 3) = w := by
  apply BitVec.eq_of_getLsbD_eq
  intro i hi
  rw [leWord_getLsbD]
  simp only [byteOf_getLsbD]
  split
  · rename_i h; simp [h]
  split
  · rw [show 8 * 1 + (i - 8) = i by omega]; simp [show i - 8 < 8 by omega]
  split
  · rw [show 8 * 2 + (i - 16) = i by omega]; simp [show i - 16 < 8 by omega]
  · rw [show 8 * 3 + (i - 24) = i by omega]; simp [show i - 24 < 8 by omega]

/-- Two words with the same four bytes are equal. -/
theorem word_eq_of_bytes {v w : Word} (h : ∀ j < 4, byteOf v j = byteOf w j) : v = w := by
  rw [← leWord_byteOf v, ← leWord_byteOf w, h 0 (by omega), h 1 (by omega), h 2 (by omega), h 3 (by omega)]

/-- The byte of a word put together from a byte function. -/
theorem byteOf_leWord_fun (f : Nat → Byte) {j : Nat} (hj : j < 4) : byteOf (leWord (f 0) (f 1) (f 2) (f 3)) j = f j := by
  match j, hj with
  | 0, _ => simp
  | 1, _ => simp
  | 2, _ => simp
  | 3, _ => simp

theorem byteOf_wordAt (s : State) (k : Nat) {j : Nat} (hj : j < 4) : byteOf (s.wordAt k) j = s.byteAt .wbuf (4 * k + j) :=
  byteOf_leWord_fun (fun j => s.byteAt .wbuf (4 * k + j)) hj

/-! ### Reads after writes -/

/-- What a store of one byte does to every read of a byte. -/
theorem State.cellAt_setCell (s : State) (a : Nat) (v : Byte) (x : Nat) :
    (s.setCell a v).cellAt x = if x = a then v else s.cellAt x := by
  simp only [State.cellAt, State.setCell, Memory.get?_set]
  split <;> simp

/-- What a store of consecutive bytes does to every read of a byte. -/
theorem State.cellAt_storeCells (vs : List Byte) (s : State) (a x : Nat) :
    (s.storeCells a vs).cellAt x = if a ≤ x ∧ x < a + vs.length then vs.getD (x - a) 0#8 else s.cellAt x := by
  induction vs generalizing s a with
  | nil => simp [State.storeCells, show ¬ (a ≤ x ∧ x < a) by omega]
  | cons v vs ih =>
    rw [State.storeCells, ih, State.cellAt_setCell]
    by_cases h1 : x = a
    · subst h1
      rw [if_neg (by omega), if_pos rfl, if_pos (by simp)]
      simp
    · by_cases h2 : a + 1 ≤ x ∧ x < a + 1 + vs.length
      · rw [if_pos h2, if_pos (by simp only [List.length_cons]; omega), show x - a = (x - (a + 1)) + 1 by omega, List.getD_cons_succ]
      · rw [if_neg h2, if_neg h1, if_neg (by simp only [List.length_cons]; omega)]

theorem State.cellAt_congr {s t : State} (hm : t.mem = s.mem) (hd : t.draw = s.draw) (a : Nat) : t.cellAt a = s.cellAt a := by
  simp [State.cellAt, hm, hd]

theorem State.byteAt_congr {s t : State} (hm : t.mem = s.mem) (hd : t.draw = s.draw) (b : Buf) (i : Nat) :
    t.byteAt b i = s.byteAt b i := State.cellAt_congr hm hd _

theorem State.wordAt_congr {s t : State} (hm : t.mem = s.mem) (hd : t.draw = s.draw) (k : Nat) : t.wordAt k = s.wordAt k := by
  simp [State.wordAt, State.byteAt_congr hm hd]

theorem State.words_congr {s t : State} (hm : t.mem = s.mem) (hd : t.draw = s.draw) (n : Nat) : t.words n = s.words n := by
  simp [State.words, State.wordAt_congr hm hd]

@[simp] theorem State.cellAt_complete (s : State) (e : ErrorCode) (a : Nat) : (s.complete e).cellAt a = s.cellAt a := rfl

@[simp] theorem State.cellAt_raise (s : State) (e : ErrorCode) (a : Nat) : (s.raise e).cellAt a = s.cellAt a := rfl

@[simp] theorem State.byteAt_complete (s : State) (e : ErrorCode) (b : Buf) (i : Nat) : (s.complete e).byteAt b i = s.byteAt b i := rfl

@[simp] theorem State.byteAt_raise (s : State) (e : ErrorCode) (b : Buf) (i : Nat) : (s.raise e).byteAt b i = s.byteAt b i := rfl

@[simp] theorem State.wordAt_complete (s : State) (e : ErrorCode) (k : Nat) : (s.complete e).wordAt k = s.wordAt k := rfl

@[simp] theorem State.wordAt_raise (s : State) (e : ErrorCode) (k : Nat) : (s.raise e).wordAt k = s.wordAt k := rfl

/-- The bounds of WMAX as numbers. -/
theorem wmaxOk_iff (wmax : Nat) : Config.wmaxOk wmax = true ↔ 2 ≤ wmax ∧ wmax ≤ 16383 := by
  simp only [Config.wmaxOk, Bool.and_eq_true, decide_eq_true_eq]
  exact Iff.rfl

/-! ### Words and bytes of lists -/

@[simp] theorem State.bytes_length (s : State) (b : Buf) (n : Nat) : (s.bytes b n).length = n := by simp [State.bytes]

@[simp] theorem State.words_length (s : State) (n : Nat) : (s.words n).length = n := by simp [State.words]

theorem State.bytes_getD (s : State) (b : Buf) {n i : Nat} (h : i < n) : (s.bytes b n).getD i 0#8 = s.byteAt b i := by
  simp [State.bytes, List.getD_eq_getElem?_getD, List.getElem?_range h]

theorem State.bytes_getD_of_ge (s : State) (b : Buf) {n i : Nat} (h : n ≤ i) : (s.bytes b n).getD i 0#8 = 0#8 := by
  simp [State.bytes, List.getD_eq_getElem?_getD, h]

theorem State.words_getD (s : State) {n k : Nat} (h : k < n) : (s.words n).getD k 0#32 = s.wordAt k := by
  simp [State.words, List.getD_eq_getElem?_getD, List.getElem?_range h]

@[simp] theorem wordBytes_length (ws : List Word) : (wordBytes ws).length = 4 * ws.length := by
  induction ws with
  | nil => rfl
  | cons w ws ih => simp only [wordBytes, List.flatMap_cons, List.length_append, List.length_cons] at *; simp_all; omega

/-- Byte `4k + j` of the words' bytes is byte `j` of word `k`. -/
theorem wordBytes_getD (ws : List Word) (k : Nat) {j : Nat} (hj : j < 4) (hk : k < ws.length) :
    (wordBytes ws).getD (4 * k + j) 0#8 = byteOf (ws.getD k 0#32) j := by
  induction ws generalizing k with
  | nil => simp at hk
  | cons w ws ih =>
    have hcons : wordBytes (w :: ws) = byteOf w 0 :: byteOf w 1 :: byteOf w 2 :: byteOf w 3 :: wordBytes ws := by
      simp [wordBytes]
    rw [hcons]
    cases k with
    | zero =>
      match j, hj with
      | 0, _ => simp
      | 1, _ => simp
      | 2, _ => simp
      | 3, _ => simp
    | succ k =>
      rw [show 4 * (k + 1) + j = (4 * k + j) + 1 + 1 + 1 + 1 by omega]
      simp only [List.getD_cons_succ]
      exact ih k (by simpa using hk)

/-- What a store of words does to every read of a byte. -/
theorem State.cellAt_storeWords (s : State) (ws : List Word) (x : Nat) :
    (s.storeWords ws).cellAt x = if Buf.wbuf.base ≤ x ∧ x < Buf.wbuf.base + 4 * ws.length
      then byteOf (ws.getD ((x - Buf.wbuf.base) / 4) 0#32) ((x - Buf.wbuf.base) % 4) else s.cellAt x := by
  rw [State.storeWords, State.cellAt_storeCells, wordBytes_length]
  split
  · rename_i h
    have hx := wordBytes_getD ws ((x - Buf.wbuf.base) / 4) (j := (x - Buf.wbuf.base) % 4) (by omega) (by omega)
    rwa [show 4 * ((x - Buf.wbuf.base) / 4) + (x - Buf.wbuf.base) % 4 = x - Buf.wbuf.base by omega] at hx
  · rfl

/-- What a store of output bytes does to every read of a byte. -/
theorem State.cellAt_storeOut (s : State) (out : List Byte) (x : Nat) :
    (s.storeOut out).cellAt x = if Buf.obuf.base ≤ x ∧ x < Buf.obuf.base + out.length
      then out.getD (x - Buf.obuf.base) 0#8 else s.cellAt x := State.cellAt_storeCells out s _ x

/-- The words of WBUF after a store of words: the stored ones, then the old ones. -/
theorem State.wordAt_storeWords (s : State) (ws : List Word) (k : Nat) :
    (s.storeWords ws).wordAt k = if k < ws.length then ws.getD k 0#32 else s.wordAt k := by
  apply word_eq_of_bytes
  intro j hj
  rw [byteOf_wordAt _ _ hj, State.byteAt, State.cellAt_storeWords]
  by_cases h : k < ws.length
  · rw [if_pos (by omega), if_pos h, show (Buf.wbuf.base + (4 * k + j) - Buf.wbuf.base) / 4 = k by omega,
      show (Buf.wbuf.base + (4 * k + j) - Buf.wbuf.base) % 4 = j by omega]
  · rw [if_neg (by omega), if_neg h, byteOf_wordAt _ _ hj, State.byteAt]

/-- The stored words are read back whole. -/
theorem State.words_storeWords (s : State) (ws : List Word) : (s.storeWords ws).words ws.length = ws := by
  apply List.ext_getElem
  · simp
  · intro k h1 h2
    simp only [State.words, List.getElem_map, List.getElem_range]
    rw [State.wordAt_storeWords, if_pos h2]
    simp [List.getD_eq_getElem?_getD, h2]

theorem State.byteAt_storeWords_of_ne (s : State) (ws : List Word) {b : Buf} (hb : b ≠ .wbuf) {i : Nat}
    (h : b = .kbuf → i < 16) (hlen : 4 * ws.length ≤ 0x10000) : (s.storeWords ws).byteAt b i = s.byteAt b i := by
  unfold State.byteAt
  rw [State.cellAt_storeWords, if_neg]
  cases b
  · have := h rfl; simp only [Buf.base]; omega
  · exact absurd rfl hb
  · simp only [Buf.base]; omega
  · simp only [Buf.base]; omega

/-- A store into one buffer keeps the canonical form and lists bytes of the buffers only. -/
theorem State.storeCells_wf {s : State} (h : s.mem.wf = true) (vs : List Byte) (a : Nat) : (s.storeCells a vs).mem.wf = true := by
  induction vs generalizing s a with
  | nil => exact h
  | cons v vs ih => exact ih (Memory.wf_set h a v) (a + 1)

theorem State.storeCells_all {s : State} {p : Nat → Bool} (h : (s.mem.all fun c => p c.1) = true) (vs : List Byte) (a : Nat)
    (ha : ∀ i < vs.length, p (a + i) = true) : ((s.storeCells a vs).mem.all fun c => p c.1) = true := by
  induction vs generalizing s a with
  | nil => exact h
  | cons v vs ih =>
    apply ih (s := s.setCell a v)
    · exact Memory.all_set h (by simpa using ha 0 (by simp))
    · intro i hi
      rw [Nat.add_right_comm, Nat.add_assoc]
      exact ha (i + 1) (by simpa using hi)

end Sys2Proof.Machine
end

