-- ==== Sys2Proof/Laws/Packing.lean ====
section
/-! SUPPORT. What the packing engine's functions and shared steps do. -/

namespace Sys2Proof.Machine

/-- Byte `j` of packed word `k` is source byte `4k + j`, zero past the end. -/
theorem byteOf_packWord (src : List Byte) (k : Nat) {j : Nat} (hj : j < 4) :
    byteOf (packWord src k) j = src.getD (4 * k + j) 0#8 :=
  byteOf_leWord_fun (fun j => src.getD (4 * k + j) 0#8) hj

@[simp] theorem packWords_length (src : List Byte) (l : Bool) :
    (packWords src l).length = ceil4 src.length + (if l then 1 else 0) := by
  cases l <;> simp [packWords]

/-- A data word of the packed words. -/
theorem packWords_getD_data (src : List Byte) (l : Bool) {k : Nat} (hk : k < ceil4 src.length) :
    (packWords src l).getD k 0#32 = packWord src k := by
  simp only [packWords, List.getD_eq_getElem?_getD]
  rw [List.getElem?_append_left (by simpa using hk)]
  simp [List.getElem?_range hk]

/-- The length word of the packed words. -/
theorem packWords_getD_length (src : List Byte) : (packWords src true).getD (ceil4 src.length) 0#32 = BitVec.ofNat 32 src.length := by
  simp [packWords, List.getD_eq_getElem?_getD]

/-- Byte `i` of the packed words, below the length word. -/
theorem byteOf_packWords (src : List Byte) (l : Bool) {i : Nat} (hi : i < 4 * ceil4 src.length) :
    byteOf ((packWords src l).getD (i / 4) 0#32) (i % 4) = src.getD i 0#8 := by
  rw [packWords_getD_data _ _ (by omega), byteOf_packWord _ _ (by omega), show 4 * (i / 4) + i % 4 = i by omega]

@[simp] theorem unpackOut_length (w : List Word) (m : Nat) : (unpackOut w m).length = m + 1 := by simp [unpackOut]

theorem unpackOut_getD (w : List Word) {m i : Nat} (hi : i < m) : (unpackOut w m).getD i 0#8 = unpackByte w i := by
  simp only [unpackOut, List.getD_eq_getElem?_getD]
  rw [List.getElem?_append_left (by simpa using hi)]
  simp [List.getElem?_range hi]

theorem unpackOut_getD_end (w : List Word) (m : Nat) : (unpackOut w m).getD m 0#8 = 0#8 := by
  simp [unpackOut, List.getD_eq_getElem?_getD]

/-! ### The shared steps -/

@[simp] theorem State.inputBytes_length (s : State) : s.inputBytes.length = s.len.toNat := by simp [State.inputBytes]

@[simp] theorem State.wordArray_length (s : State) : s.wordArray.length = s.wcnt.toNat := by simp [State.wordArray]

/-- The words `packInput` stores. -/
theorem State.cellAt_packInput (s : State) (l : Bool) (x : Nat) :
    (s.packInput l).cellAt x = (s.storeWords (packWords s.inputBytes l)).cellAt x :=
  State.cellAt_congr rfl rfl x

/-- `packInput` changes the buffer bytes of the words it stores and no other. -/
theorem State.cellAt_packInput_of_outside (s : State) (l : Bool) {x : Nat}
    (h : ¬ (Buf.wbuf.base ≤ x ∧ x < Buf.wbuf.base + 4 * (ceil4 s.len.toNat + (if l then 1 else 0)))) :
    (s.packInput l).cellAt x = s.cellAt x := by
  rw [State.cellAt_packInput, State.cellAt_storeWords, if_neg]
  simpa using h

/-- The data bytes `packInput` leaves in WBUF. -/
theorem State.byteAt_packInput (s : State) (l : Bool) {i : Nat} (hi : i < 4 * ceil4 s.len.toNat) :
    (s.packInput l).byteAt .wbuf i = if i < s.len.toNat then s.byteAt .ibuf i else 0#8 := by
  rw [State.byteAt, State.cellAt_packInput, State.cellAt_storeWords, if_pos (by simp only [packWords_length, State.inputBytes_length]; omega),
    Nat.add_sub_cancel_left, byteOf_packWords _ _ (by simpa using hi), State.inputBytes]
  split
  · rename_i h; rw [State.bytes_getD _ _ h]
  · rename_i h; rw [State.bytes_getD_of_ge _ _ (by omega)]

/-- The whole word array after `packInput`. -/
theorem State.wordArray_packInput (s : State) (l : Bool) (h : ceil4 s.len.toNat + (if l then 1 else 0) < 2 ^ 32) :
    (s.packInput l).wordArray = packWords s.inputBytes l := by
  have hn : (s.packInput l).wcnt.toNat = (packWords s.inputBytes l).length := by
    simp only [State.packInput_wcnt, BitVec.toNat_ofNat, packWords_length, State.inputBytes_length]
    exact Nat.mod_eq_of_lt h
  rw [State.wordArray, hn]
  exact State.words_storeWords s _

/-- A packed input always has at most 2^30 words. -/
theorem ceil4_len_le (s : State) : ceil4 s.len.toNat ≤ 2 ^ 30 := by
  have := s.len.isLt
  unfold ceil4
  omega

/-- What `finishUnpack` can do: CORRUPT_DATA, or the bytes with their terminating zero, OUTLEN and completion. -/
theorem State.finishUnpack_cases (s : State) (l : Bool) :
    (l = true ∧ 4 * s.wcnt.toNat < (s.wordArray.getD (s.wcnt.toNat - 1) 0#32).toNat ∧ s.finishUnpack l = s.raise .corruptData) ∨
    (∃ m, m = (if l then (s.wordArray.getD (s.wcnt.toNat - 1) 0#32).toNat else 4 * s.wcnt.toNat) ∧ m ≤ 4 * s.wcnt.toNat ∧
      s.finishUnpack l =
        State.complete .ok { s.storeOut (unpackOut s.wordArray m) with outlen := BitVec.ofNat 32 m }) := by
  cases l with
  | false => exact Or.inr ⟨_, by simp, Nat.le_refl _, by simp [State.finishUnpack, unpackBytes]⟩
  | true =>
    by_cases h : 4 * s.wcnt.toNat < (s.wordArray.getD (s.wcnt.toNat - 1) 0#32).toNat
    · refine Or.inl ⟨rfl, h, ?_⟩
      simp only [State.finishUnpack, unpackBytes, State.wordArray_length, if_true, if_pos h]
    · refine Or.inr ⟨_, rfl, by simpa using h, ?_⟩
      simp only [State.finishUnpack, unpackBytes, State.wordArray_length, if_true, if_neg h]

end Sys2Proof.Machine
end

