-- ==== Sys2Proof/Laws/Mixer.lean ====
section
/-! SUPPORT. The round mixer: lengths are kept, and what the shared round step does. -/

namespace Sys2Proof.Machine

/-- What `roundE` computes: bits 3:2 of `sum` (R142). -/
theorem roundE_eq (sum : Word) : roundE sum = BitVec.ofNat 2 (sum.toNat / 4) := by
  apply BitVec.eq_of_toNat_eq
  simp only [roundE, BitVec.toNat_setWidth, BitVec.toNat_and, BitVec.toNat_ushiftRight, BitVec.toNat_ofNat, Nat.shiftRight_eq_div_pow]
  rw [show 3 % 2 ^ 32 = 2 ^ 2 - 1 by decide, Nat.and_two_pow_sub_one_eq_mod, Nat.mod_mod]

@[simp] theorem encUpdate_length (key : KeyWords) (sum : Word) (w : List Word) (z y : Word) (p : Nat) :
    (encUpdate key sum w z y p).1.length = w.length := by simp [encUpdate]

@[simp] theorem decUpdate_length (key : KeyWords) (sum : Word) (w : List Word) (z y : Word) (p : Nat) :
    (decUpdate key sum w z y p).1.length = w.length := by simp [decUpdate]

/-- A fold whose every step keeps a length keeps it. -/
theorem foldl_length {α β γ : Type} (f : List α × β → γ → List α × β) (hf : ∀ a c, (f a c).1.length = a.1.length) (cs : List γ)
    (a : List α × β) : (cs.foldl f a).1.length = a.1.length := by
  induction cs generalizing a with
  | nil => rfl
  | cons c cs ih => rw [List.foldl_cons, ih, hf]

@[simp] theorem encRound_length (key : KeyWords) (n : Nat) (sum : Word) (a : List Word × Word) :
    (encRound key n sum a).1.length = a.1.length := by
  rw [encRound, encUpdate_length, foldl_length _ (fun _ _ => encUpdate_length ..)]

@[simp] theorem decRound_length (key : KeyWords) (n : Nat) (sum : Word) (a : List Word × Word) :
    (decRound key n sum a).1.length = a.1.length := by
  rw [decRound, decUpdate_length, foldl_length _ (fun _ _ => decUpdate_length ..)]

@[simp] theorem encLoop_length (key : KeyWords) (n q : Nat) (sum : Word) (a : List Word × Word) :
    (encLoop key n q sum a).1.length = a.1.length := by
  induction q generalizing sum a with
  | zero => rfl
  | succ q ih => rw [encLoop, ih, encRound_length]

@[simp] theorem decLoop_length (key : KeyWords) (n fuel : Nat) (sum : Word) (a : List Word × Word) :
    (decLoop key n fuel sum a).1.length = a.1.length := by
  induction fuel generalizing sum a with
  | zero => rfl
  | succ q ih => rw [decLoop]; split; rfl; rw [ih, decRound_length]

@[simp] theorem encRounds_length (w : List Word) (key : KeyWords) : (encRounds w key).length = w.length := by
  unfold encRounds; split <;> simp

@[simp] theorem decRounds_length (w : List Word) (key : KeyWords) : (decRounds w key).length = w.length := by
  unfold decRounds; split <;> simp

/-- `mixWords` changes the bytes of the words of the array and no other. -/
theorem State.cellAt_mixWords_of_outside (s : State) (r : List Word → KeyWords → List Word) (hr : ∀ w k, (r w k).length = w.length)
    {x : Nat} (h : ¬ (Buf.wbuf.base ≤ x ∧ x < Buf.wbuf.base + 4 * s.wcnt.toNat)) : (s.mixWords r).cellAt x = s.cellAt x := by
  unfold State.mixWords
  split
  · rfl
  · have hx := State.cellAt_storeWords s (r s.wordArray s.key) x
    rw [if_neg (by rw [hr, State.wordArray_length]; exact h)] at hx
    rw [← hx]
    exact State.cellAt_congr rfl rfl x

/-- The word array after `mixWords`. -/
theorem State.wordArray_mixWords (s : State) (r : List Word → KeyWords → List Word) (hr : ∀ w k, (r w k).length = w.length) :
    (s.mixWords r).wordArray = if s.wcnt = 1#32 then s.wordArray else r s.wordArray s.key := by
  by_cases h : s.wcnt = 1#32
  · rw [if_pos h, State.wordArray, State.wordArray, State.mixWords_wcnt]
    simp only [State.words, List.map_inj_left]
    intro k _
    simp [State.wordAt, State.byteAt, State.cellAt, State.mixWords, h]
  · rw [if_neg h]
    have hw := State.words_storeWords s (r s.wordArray s.key)
    rw [hr, State.wordArray_length] at hw
    rw [State.wordArray, State.mixWords_wcnt]
    rw [← hw]
    simp only [State.words, List.map_inj_left]
    intro k _
    simp [State.wordAt, State.byteAt, State.cellAt, State.mixWords, h]

@[simp] theorem State.mixWords_rounds (s : State) (r : List Word → KeyWords → List Word) :
    (s.mixWords r).rounds = if s.wcnt = 1#32 then 0#32 else BitVec.ofNat 32 (roundCount s.wcnt.toNat) := by
  unfold State.mixWords; split <;> rfl

end Sys2Proof.Machine
end

