-- ==== Sys2Proof/Laws/Commands.lean ====
section
/-! SUPPORT. What no command changes, and what no command can do. -/

namespace Sys2Proof.Machine

theorem State.finishUnpack_frame (s : State) (l : Bool) :
    (s.finishUnpack l).wmax = s.wmax ∧ (s.finishUnpack l).draw = s.draw ∧ (s.finishUnpack l).inReset = s.inReset ∧
    (s.finishUnpack l).pins = s.pins ∧ (s.finishUnpack l).host = s.host ∧ (s.finishUnpack l).replies = s.replies ∧
    (s.finishUnpack l).turns = s.turns ∧ (s.finishUnpack l).busy = false := by
  rcases State.finishUnpack_cases s l with ⟨-, -, h⟩ | ⟨m, -, -, h⟩ <;> rw [h] <;> simp

/-- Every command answers a next state, with BUSY = 0, and leaves WMAX, the draw, the reset pin and the queues alone. -/
theorem exec_frame (i : Instr) (s : State) : ∃ t, exec i s = .next t ∧ t.wmax = s.wmax ∧ t.draw = s.draw ∧ t.inReset = s.inReset ∧
    t.pins = s.pins ∧ t.host = s.host ∧ t.replies = s.replies ∧ t.turns = s.turns ∧ t.busy = false := by
  cases i
  case nop => exact ⟨_, rfl, by simp⟩
  case srst => exact ⟨_, rfl, by simp⟩
  case keypack => exact ⟨_, rfl, by simp⟩
  case pack => simp only [exec, execPack]; split <;> exact ⟨_, rfl, by simp⟩
  case packL => simp only [exec, execPackL]; split <;> exact ⟨_, rfl, by simp⟩
  case unpack => simp only [exec, execUnpack]; split; exact ⟨_, rfl, by simp⟩; exact ⟨_, rfl, State.finishUnpack_frame ..⟩
  case unpackL =>
    simp only [exec, execUnpackL]
    split; exact ⟨_, rfl, by simp⟩
    split; exact ⟨_, rfl, by simp⟩
    exact ⟨_, rfl, State.finishUnpack_frame ..⟩
  case encr => simp only [exec, execEncr]; split; exact ⟨_, rfl, by simp⟩; split <;> exact ⟨_, rfl, by simp⟩
  case decr => simp only [exec, execDecr]; split; exact ⟨_, rfl, by simp⟩; split <;> exact ⟨_, rfl, by simp⟩
  case encrypt =>
    simp only [exec, execEncrypt]
    split; exact ⟨_, rfl, by simp⟩
    split; exact ⟨_, rfl, by simp⟩
    exact ⟨_, rfl, by simpa [State.encryptSteps] using State.finishUnpack_frame s.encryptSteps false⟩
  case decrypt =>
    simp only [exec, execDecrypt]
    split; exact ⟨_, rfl, by simp⟩
    split; exact ⟨_, rfl, by simp⟩
    exact ⟨_, rfl, by simpa [State.decryptSteps] using State.finishUnpack_frame s.decryptSteps true⟩

end Sys2Proof.Machine
end

