-- ==== Sys2Proof/Laws/PerInstr.lean ====
section
/-! SUPPORT. Statements made of each command as syntax, one lemma per constructor. -/

namespace Sys2Proof.Laws.Fields

/-- The command's fields are legal (30_encoding.md R91, R93, R94), and its word is below 0x20, so every reserved bit is 0. -/
def Statement (i : Instr) : Prop := i.wellFormed = true ∧ i.fields.wellFormed = true ∧ (encode i).toNat < 0x20

theorem nop : Statement .nop := by unfold Statement; decide

theorem pack : Statement .pack := by unfold Statement; decide

theorem packL : Statement .packL := by unfold Statement; decide

theorem unpack : Statement .unpack := by unfold Statement; decide

theorem unpackL : Statement .unpackL := by unfold Statement; decide

theorem keypack : Statement .keypack := by unfold Statement; decide

theorem encr : Statement .encr := by unfold Statement; decide

theorem decr : Statement .decr := by unfold Statement; decide

theorem encrypt : Statement .encrypt := by unfold Statement; decide

theorem decrypt : Statement .decrypt := by unfold Statement; decide

theorem srst : Statement .srst := by unfold Statement; decide

end Sys2Proof.Laws.Fields
end

