-- ==== Sys2Proof/Laws/Step.lean ====
section
/-! SUPPORT. What a step can do: one inversion lemma for each agent's move and for the step, and the accesses of the port. -/

namespace Sys2Proof.Machine

/-! ### The port -/

/-- A host write that completes is a register's write effect or a store of bytes into KBUF, WBUF or IBUF. -/
theorem State.memWrite_cases {s t : State} {off : Nat} {size : AccessSize} {v : Word} (h : s.memWrite off size v = some t) :
    (∃ r, regAt off = some r ∧ size = .word ∧ t = s.writeReg v r) ∨
    (∃ b, regAt off = none ∧ bufAt s.wmax off = some b ∧ b ≠ .obuf ∧ b.admits s.wmax off size = true ∧
      t = s.storeCells off (valueBytes v size)) := by
  unfold State.memWrite at h
  split at h
  · rename_i r hr
    split at h
    · rename_i hs
      exact Or.inl ⟨r, hr, hs, by simpa using h.symm⟩
    · simp at h
  · rename_i hr
    split at h
    · simp at h
    · rename_i b hne hb
      split at h
      · rename_i ha
        exact Or.inr ⟨b, hr, hb, fun e => hne e, ha, by simpa using h.symm⟩
      · simp at h
    · simp at h

@[simp] theorem valueBytes_length (v : Word) (size : AccessSize) : (valueBytes v size).length = size.bytes := by cases size <;> rfl

theorem valueBytes_getD (v : Word) (size : AccessSize) {j : Nat} (hj : j < size.bytes) : (valueBytes v size).getD j 0#8 = byteOf v j := by
  cases size <;> simp only [AccessSize.bytes] at hj
  · match j, hj with
    | 0, _ => rfl
  · match j, hj with
    | 0, _ => rfl
    | 1, _ => rfl
  · match j, hj with
    | 0, _ => rfl
    | 1, _ => rfl
    | 2, _ => rfl
    | 3, _ => rfl

/-- The registers' write effects leave the buffers, WMAX, the reset pin and the queues alone. -/
theorem State.writeReg_frame (s : State) (v : Word) (r : Reg) :
    (s.writeReg v r).wmax = s.wmax ∧ (s.writeReg v r).mem = s.mem ∧ (s.writeReg v r).draw = s.draw ∧
    (s.writeReg v r).inReset = s.inReset ∧ (s.writeReg v r).pins = s.pins ∧ (s.writeReg v r).host = s.host ∧
    (s.writeReg v r).replies = s.replies ∧ (s.writeReg v r).turns = s.turns ∧ (s.writeReg v r).outlen = s.outlen ∧
    (s.writeReg v r).rounds = s.rounds := by
  cases r <;> simp [State.writeReg]

theorem State.memWrite_frame {s t : State} {off : Nat} {size : AccessSize} {v : Word} (h : s.memWrite off size v = some t) :
    t.wmax = s.wmax ∧ t.draw = s.draw ∧ t.inReset = s.inReset ∧ t.pins = s.pins ∧ t.host = s.host ∧ t.replies = s.replies ∧
    t.turns = s.turns ∧ t.outlen = s.outlen ∧ t.rounds = s.rounds := by
  rcases State.memWrite_cases h with ⟨r, -, -, rfl⟩ | ⟨b, -, -, -, -, rfl⟩
  · obtain ⟨h1, -, h3, h4, h5, h6, h7, h8, h9, h10⟩ := State.writeReg_frame s v r
    exact ⟨h1, h3, h4, h5, h6, h7, h8, h9, h10⟩
  · simp

/-- Which buffer an offset lies in. -/
theorem bufAt_some {wmax off : Nat} {b : Buf} (h : bufAt wmax off = some b) :
    b.base ≤ off ∧ off < b.base + b.extent wmax := by
  have hb := List.find?_some h
  simpa [Buf.holds] using hb

/-! ### The agents' moves -/

/-- What the host's move can do. -/
theorem State.hostMove_cases (s : State) :
    (s.host = [] ∧ s.hostMove = .next s) ∨
    (∃ off size rest v, s.host = .read off size :: rest ∧ s.memRead off.toNat size = some v ∧
      s.hostMove = .next { s with host := rest, replies := v :: s.replies }) ∨
    (∃ off size rest, s.host = .read off size :: rest ∧ s.memRead off.toNat size = none ∧
      s.hostMove = .fault (.busError off size .read)) ∨
    (∃ off size v rest t, s.host = .write off size v :: rest ∧ s.memWrite off.toNat size v = some t ∧
      s.hostMove = .next { t with host := rest }) ∨
    (∃ off size v rest, s.host = .write off size v :: rest ∧ s.memWrite off.toNat size v = none ∧
      s.hostMove = .fault (.busError off size .write)) ∨
    (∃ rest, s.host = .wait :: rest ∧
      (s.hostMove = .next s ∨ (s.busy = false ∧ s.hostMove = .next { s with host := rest }))) := by
  unfold State.hostMove
  split
  · rename_i h; exact Or.inl ⟨h, rfl⟩
  · rename_i off size rest h
    split
    · rename_i v hv; exact Or.inr (Or.inl ⟨off, size, rest, v, h, hv, rfl⟩)
    · rename_i hv; exact Or.inr (Or.inr (Or.inl ⟨off, size, rest, h, hv, rfl⟩))
  · rename_i off size v rest h
    split
    · rename_i t ht; exact Or.inr (Or.inr (Or.inr (Or.inl ⟨off, size, v, rest, t, h, ht, rfl⟩)))
    · rename_i ht; exact Or.inr (Or.inr (Or.inr (Or.inr (Or.inl ⟨off, size, v, rest, h, ht, rfl⟩))))
  · rename_i rest h
    refine Or.inr (Or.inr (Or.inr (Or.inr (Or.inr ⟨rest, h, ?_⟩))))
    split
    · exact Or.inl rfl
    · rename_i hb
      refine Or.inr ⟨?_, rfl⟩
      by_contra hbusy
      rw [Bool.not_eq_false] at hbusy
      exact hb (by simp [State.readReg, State.statusWord, flagWord, hbusy])

/-- The platform's move is a hardware reset, or nothing. -/
theorem State.platformMove_cases (s : State) :
    (s.pins = [] ∧ s.platformMove = .next s) ∨
    (∃ rest, s.pins = .assertReset :: rest ∧ s.platformMove = .next { s.hardwareReset with inReset := true, pins := rest }) ∨
    (∃ rest, s.pins = .releaseReset :: rest ∧ s.platformMove = .next { s.hardwareReset with inReset := false, pins := rest }) := by
  unfold State.platformMove
  split
  · rename_i h; exact Or.inl ⟨h, rfl⟩
  · rename_i rest h; exact Or.inr (Or.inl ⟨rest, h, rfl⟩)
  · rename_i rest h; exact Or.inr (Or.inr ⟨rest, h, rfl⟩)

/-- The engine's move is a command's meaning, or ILLEGAL_CMD. -/
theorem engineMove_cases (s : State) :
    (∃ i, decode s.cmdLatch = .ok i ∧ engineMove s = exec i s) ∨
    (∃ e, decode s.cmdLatch = .error e ∧ engineMove s = .next (s.raise .illegalCmd)) := by
  unfold engineMove State.fetch illegalCommand
  split
  · rename_i i h; exact Or.inl ⟨i, h, rfl⟩
  · rename_i e h; exact Or.inr ⟨e, h, rfl⟩

/-- The engine's move answers a next state and leaves the queues alone. -/
theorem engineMove_frame (s : State) : ∃ t, engineMove s = .next t ∧ t.wmax = s.wmax ∧ t.draw = s.draw ∧ t.inReset = s.inReset ∧
    t.pins = s.pins ∧ t.host = s.host ∧ t.replies = s.replies ∧ t.turns = s.turns ∧ t.busy = false := by
  rcases engineMove_cases s with ⟨i, -, h⟩ | ⟨e, -, h⟩ <;> rw [h]
  · exact exec_frame i s
  · exact ⟨_, rfl, by simp⟩

/-! ### Who moves -/

/-- An agent that moves can move. -/
theorem State.mover_canMove {s : State} {a : Agent} (h : s.mover = some a) : s.canMove a = true := by
  have hd : s.defaultMover = some a → s.canMove a = true := by
    unfold State.defaultMover
    split
    · rename_i hc; rintro ⟨⟩; exact hc
    split
    · rename_i hc; rintro ⟨⟩; exact hc
    split
    · rename_i hc; rintro ⟨⟩; exact hc
    · rintro ⟨⟩
  unfold State.mover at h
  split at h
  · exact hd h
  · split at h
    · rename_i b _ _ hc
      obtain rfl : b = a := by simpa using h
      exact hc
    · exact hd h

/-- When no agent moves, none can. -/
theorem State.mover_none {s : State} (h : s.mover = none) (a : Agent) : s.canMove a = false := by
  have hd : s.defaultMover = none → s.canMove a = false := by
    unfold State.defaultMover
    split
    · rintro ⟨⟩
    split
    · rintro ⟨⟩
    split
    · rintro ⟨⟩
    · intro _; cases a <;> simp_all [State.canMove]
  unfold State.mover at h
  split at h
  · exact hd h
  · split at h
    · simp at h
    · exact hd h

/-- The engine moves when it can and the schedule does not name another agent. -/
theorem State.mover_engine {s : State} (hb : s.busy = true) (hr : s.inReset = false)
    (ht : s.turns = [] ∨ s.turns.head? = some .engine) : s.mover = some .engine := by
  have hc : s.engineCanMove = true := by simp [State.engineCanMove, hb, hr]
  unfold State.mover
  split
  · simp [State.defaultMover, hc]
  · rename_i a l hl
    rcases ht with h | h
    · simp [hl] at h
    · obtain rfl : a = .engine := by simpa [hl] using h
      simp [State.canMove, hc]

/-- What a step can do: one agent's move on the state with its turn used up, or nothing. -/
theorem step_cases (s : State) :
    (s.mover = some .engine ∧ step s = engineMove s.nextTurn) ∨
    (s.mover = some .host ∧ step s = s.nextTurn.hostMove) ∨
    (s.mover = some .platform ∧ step s = s.nextTurn.platformMove) ∨
    (s.mover = none ∧ step s = .next s.nextTurn) := by
  unfold step
  split
  · rename_i h; exact Or.inl ⟨h, rfl⟩
  · rename_i h; exact Or.inr (Or.inl ⟨h, rfl⟩)
  · rename_i h; exact Or.inr (Or.inr (Or.inl ⟨h, rfl⟩))
  · rename_i h; exact Or.inr (Or.inr (Or.inr ⟨h, rfl⟩))

end Sys2Proof.Machine
end

