-- ==== Sys2Proof/Tests/Slice0.lean ====
section
/-! SUPPORT. The model's own tests: ill-formed fields refused, words written out from R93, one-step tests with values of
95_test_vectors.md and of the rules' examples, and for each statement that has hypotheses a state and operands that meet them. -/

namespace Sys2Proof.Tests

open Sys2Proof Sys2Proof.Machine

/-! ### The states the tests start from -/

/-- The state a step or a command leaves, if it leaves one. -/
def next? : Host.Outcome State Fault Refusal → Option State
  | .next t => some t
  | .fault _ => none
  | .refused _ => none

/-- The keys `K1` and `K10` of 95_test_vectors.md. -/
def k1 : KeyWords := { k0 := 0x01234567#32, k1 := 0x89abcdef#32, k2 := 0xfedcba98#32, k3 := 0x76543210#32 }

def k10Bytes : List Byte := [0x31#8, 0x32#8, 0x33#8, 0x34#8, 0x35#8, 0x36#8, 0x37#8, 0x38#8, 0x39#8, 0x30#8]

def k10 : KeyWords := { k0 := 0x34333231#32, k1 := 0x38373635#32, k2 := 0x00003039#32, k3 := 0x00000000#32 }

/-- After reset, with words in WBUF, WCNT their number and a key. -/
def words (ws : List Word) (key : KeyWords) : State :=
  { State.reset.storeWords ws with wcnt := BitVec.ofNat 32 ws.length, key := key }

/-- After reset, with bytes in IBUF, LEN their number and the key bytes `K10`. -/
def input (bs : List Byte) : State :=
  { (State.reset.storeCells Buf.ibuf.base bs).storeCells Buf.kbuf.base k10Bytes with
    len := BitVec.ofNat 32 bs.length, klen := 10#5 }

/-- The ciphertext of "A" under `K10` (R170). -/
def cipherA : List Byte := [0x1c#8, 0x59#8, 0x65#8, 0xe9#8, 0xb7#8, 0xe2#8, 0x03#8, 0x2f#8]

/-! ### WellFormed refuses ill-formed fields, one by one -/

theorem test_wellFormed_pack_l : ({ op := 1#4, l := true, rsv := 0#27 } : CmdFields).wellFormed = true := by decide

theorem test_illFormed_rsv : ({ op := 4#4, l := false, rsv := 1#27 } : CmdFields).rsvOk = false := by decide

theorem test_illFormed_rsv_refused : ({ op := 4#4, l := false, rsv := 1#27 } : CmdFields).wellFormed = false := by decide

theorem test_illFormed_op : ({ op := 8#4, l := false, rsv := 0#27 } : CmdFields).opOk = false := by decide

theorem test_illFormed_op_refused : ({ op := 14#4, l := false, rsv := 0#27 } : CmdFields).wellFormed = false := by decide

theorem test_illFormed_l : ({ op := 15#4, l := true, rsv := 0#27 } : CmdFields).lOk = false := by decide

theorem test_illFormed_l_refused : ({ op := 3#4, l := true, rsv := 0#27 } : CmdFields).wellFormed = false := by decide

theorem test_wmax_bounds : Config.wmaxOk 1 = false ∧ Config.wmaxOk 2 = true ∧ Config.wmaxOk 16383 = true ∧
    Config.wmaxOk 16384 = false := by decide

/-! ### Decoding, by words written out from R93 -/

theorem test_decode_nop : decode 0b00000000000000000000000000000000#32 = .ok .nop := by decide

theorem test_decode_pack : decode 0b00000000000000000000000000000001#32 = .ok .pack := by decide

theorem test_decode_packL : decode 0b00000000000000000000000000010001#32 = .ok .packL := by decide

theorem test_decode_unpack : decode 0b00000000000000000000000000000010#32 = .ok .unpack := by decide

theorem test_decode_unpackL : decode 0b00000000000000000000000000010010#32 = .ok .unpackL := by decide

theorem test_decode_keypack : decode 0b00000000000000000000000000000011#32 = .ok .keypack := by decide

theorem test_decode_encr : decode 0b00000000000000000000000000000100#32 = .ok .encr := by decide

theorem test_decode_decr : decode 0b00000000000000000000000000000101#32 = .ok .decr := by decide

theorem test_decode_encrypt : decode 0b00000000000000000000000000000110#32 = .ok .encrypt := by decide

theorem test_decode_decrypt : decode 0b00000000000000000000000000000111#32 = .ok .decrypt := by decide

theorem test_decode_srst : decode 0b00000000000000000000000000001111#32 = .ok .srst := by decide

/-- 95_test_vectors.md, section 4.1. -/
theorem test_decode_illegal : [0x10#32, 0x13#32, 0x14#32, 0x17#32, 0x08#32, 0x0E#32, 0x1F#32, 0x20#32, 0x80000004#32].all
    (fun v => match decode v with | .ok _ => false | .error _ => true) = true := by decide

theorem test_decodeTableWord : decodeTableWord 32 0x12 = some .unpackL ∧ decodeTableWord 32 0x1F = none ∧
    decodeTableWord 8 0x06 = some .encrypt := by decide

/-- R90: a command is one word of four bytes. -/
theorem test_decodeBytes_short : decodeBytes [0#8, 0#8, 0#8] = .error .notOneWord := by decide

/-! ### One step of each command -/

/-- R190's example: STATUS 0x22 becomes 0x02. -/
theorem test_nop_status : (next? (exec .nop { State.reset with err := 2#4, done := true, outlen := 7#32 })).map
    (fun t => (t.readReg .status, t.outlen)) = some (0x02#32, 7#32) := by decide

/-- R113's example. -/
theorem test_pack_five : (next? (exec .pack (input [1#8, 2#8, 3#8, 4#8, 5#8]))).map (fun t => (t.words 2, t.wcnt)) =
    some ([0x04030201#32, 0x00000005#32], 2#32) := by decide

/-- R113: `LEN = 0` writes no word. -/
theorem test_pack_empty : (next? (exec .pack { words [9#32] k1 with len := 0#32 })).map (fun t => (t.words 1, t.wcnt, t.err)) =
    some ([9#32], 0#32, 0#4) := by decide

/-- R114's example. -/
theorem test_packL_five : (next? (exec .packL (input [1#8, 2#8, 3#8, 4#8, 5#8]))).map (fun t => (t.words 3, t.wcnt)) =
    some ([0x04030201#32, 0x00000005#32, 0x00000005#32], 3#32) := by decide

/-- 95_test_vectors.md, program P5. -/
theorem test_packL_capacity : (next? (exec .packL { State.reset with len := 1021#32 })).map (fun t => (t.readReg .status, t.wcnt)) =
    some (0x32#32, 0#32) := by decide

/-- R115's example. -/
theorem test_unpack_one : (next? (exec .unpack (words [0x64636261#32] k1))).map (fun t => (t.bytes .obuf 5, t.outlen)) =
    some ([0x61#8, 0x62#8, 0x63#8, 0x64#8, 0#8], 4#32) := by decide

/-- R115: `WCNT = 0` writes the terminating zero. -/
theorem test_unpack_none : (next? (exec .unpack State.reset)).map (fun t => (t.bytes .obuf 1, t.outlen, t.err)) =
    some ([0#8], 0#32, 0#4) := by decide

/-- R116's example: 9 > 8. -/
theorem test_unpackL_corrupt : (next? (exec .unpackL (words [0x64636261#32, 9#32] k1))).map (fun t => (t.err, t.outlen)) =
    some (2#4, 0#32) := by decide

/-- R116's example: the length 8 is accepted, and the length word's own bytes come out (90_conflicts.md C2). -/
theorem test_unpackL_permissive : (next? (exec .unpackL (words [0x64636261#32, 8#32] k1))).map (fun t => (t.bytes .obuf 9, t.outlen)) =
    some ([0x61#8, 0x62#8, 0x63#8, 0x64#8, 0x08#8, 0#8, 0#8, 0#8, 0#8], 8#32) := by decide

/-- R117's example; the six key bytes past KLEN are unwritten and never read. -/
theorem test_keypack_ten : (next? (exec .keypack (input []))).map (fun t => t.key) = some k10 := by decide

/-- R117: `KLEN = 0` gives four zero words. -/
theorem test_keypack_none : (next? (exec .keypack { input [] with klen := 0#5, key := k1 })).map (fun t => t.key) =
    some { k0 := 0#32, k1 := 0#32, k2 := 0#32, k3 := 0#32 } := by decide

/-- 95_test_vectors.md, program P2. -/
theorem test_encr_two : (next? (exec .encr (words [1#32, 2#32] k1))).map (fun t => (t.words 2, t.rounds)) =
    some ([0x9406f153#32, 0x20e739ac#32], 32#32) := by set_option maxRecDepth 20000 in decide

/-- 95_test_vectors.md, section 2.6. -/
theorem test_encr_three : (next? (exec .encr (words [0x01020304#32, 0x05060708#32, 0x090a0b0c#32] k1))).map
    (fun t => (t.words 3, t.rounds)) = some ([0xe98cc46e#32, 0x37f5994b#32, 0x3931068c#32], 23#32) := by set_option maxRecDepth 20000 in decide

/-- 95_test_vectors.md, section 2.6: DECR applied first. -/
theorem test_decr_two : (next? (exec .decr (words [0#32, 0#32] k1))).map (fun t => (t.words 2, t.rounds)) =
    some ([0xb4e7a200#32, 0xd3d3a564#32], 32#32) := by set_option maxRecDepth 20000 in decide

/-- 95_test_vectors.md, section 2.6: the passthrough of one word. -/
theorem test_decr_passthrough : (next? (exec .decr { words [0x12345678#32] k1 with rounds := 32#32 })).map
    (fun t => (t.words 1, t.rounds)) = some ([0x12345678#32], 0#32) := by decide

/-- R170's example; only the one input byte and the ten key bytes are written before. -/
theorem test_encrypt_A : (next? (exec .encrypt (input [0x41#8]))).map (fun t => (t.bytes .obuf 9, t.outlen, t.key)) =
    some (cipherA ++ [0#8], 8#32, k10) := by set_option maxRecDepth 20000 in decide

/-- 95_test_vectors.md, section 3.3, row E8: no wrap in the capacity check. -/
theorem test_encrypt_capacity : (next? (exec .encrypt { input [] with len := 0xFFFFFFFF#32 })).map (fun t => (t.err, t.key)) =
    some (3#4, { k0 := 0#32, k1 := 0#32, k2 := 0#32, k3 := 0#32 }) := by decide

/-- R172's example. -/
theorem test_decrypt_A : (next? (exec .decrypt (input cipherA))).map (fun t => (t.bytes .obuf 2, t.outlen, t.words 2, t.rounds)) =
    some ([0x41#8, 0#8], 1#32, [0x41#32, 1#32], 32#32) := by set_option maxRecDepth 20000 in decide

/-- 95_test_vectors.md, program P3: CORRUPT_DATA keeps the steps done. -/
theorem test_decrypt_corrupt :
    (next? (exec .decrypt (input [0x7c#8, 0xe6#8, 0xdb#8, 0xc0#8, 0xe6#8, 0x09#8, 0xf8#8, 0x25#8]))).map
      (fun t => (t.readReg .status, t.outlen, t.words 2, t.key)) =
    some (0x22#32, 0#32, [0x41424344#32, 9#32], k10) := by set_option maxRecDepth 20000 in decide

/-- R191's example. -/
theorem test_srst_registers :
    (next? (exec .srst { input [5#8] with len := 5#32, key := { k10 with k0 := 0x1234#32 }, ie := true, busy := true })).map
      (fun t => (t.len, t.key.k0, t.ie, t.readReg .status, t.bytes .ibuf 1)) = some (0#32, 0#32, false, 0#32, [5#8]) := by decide

/-! ### The mixing function, the port, the interrupt, reset and scripts -/

/-- 95_test_vectors.md, section 2.6: the first two steps of the trace, key indices 2 and 3. -/
theorem test_mx_trace : mx 2#32 2#32 0x9e3779b9#32 (roundE 0x9e3779b9#32) 0 k1 = 0x9d14347d#32 ∧
    mx 0x9d14347e#32 0x9d14347e#32 0x9e3779b9#32 (roundE 0x9e3779b9#32) 1 k1 = 0xddf965ff#32 := by decide

/-- 95_test_vectors.md, section 4.3: the clamp of KLEN, the byte view, the little-endian port. -/
theorem test_port_writes :
    ((State.reset.memWrite 0x020 .word 20#32).bind fun t => t.memRead 0x020 .word) = some 16#32 ∧
    (((words [0#32] k1).memWrite 0x10001 .byte 0xab#32).bind fun t => t.memRead 0x10000 .word) = some 0x0000ab00#32 ∧
    ((State.reset.memWrite 0x20002 .half 0x1234#32).bind fun t => t.memRead 0x20003 .byte) = some 0x12#32 := by decide

/-- 95_test_vectors.md, section 4.4: the illegal accesses. -/
theorem test_port_illegal :
    [State.reset.memRead 0x014 .byte, State.reset.memRead 0x00C .half, State.reset.memRead 0x002 .word,
      State.reset.memRead 0x028 .word, State.reset.memRead 0x00050 .word, State.reset.memRead 0x20001 .half,
      State.reset.memRead 0x30400 .word, State.reset.memRead 0x10400 .word].all Option.isNone = true ∧
    (State.reset.memWrite 0x02C .word 0#32).isNone = true ∧ (State.reset.memWrite 0x30000 .byte 0#32).isNone = true ∧
    (State.reset.memRead 0x30400 .byte).isSome = true := by decide

/-- 95_test_vectors.md, section 4.2: STATUS 0x22, then writes of 0x2 and of 0xFFFFFFFD. -/
theorem test_status_writes :
    ((({ State.reset with done := true, err := 2#4 } : State).memWrite 0x00C .word 2#32).bind fun t => t.memRead 0x00C .word) =
      some 0x20#32 ∧
    ((({ State.reset with done := true, err := 2#4 } : State).memWrite 0x00C .word 0xFFFFFFFD#32).bind fun t => t.memRead 0x00C .word) =
      some 0x22#32 := by decide

/-- 95_test_vectors.md, section 4.2: the interrupt output after a completion. -/
theorem test_irq : (next? (exec .nop { State.reset with ie := true })).map State.irq = some true ∧
    (next? (exec .nop State.reset)).map State.irq = some false := by decide

/-- The reset memory has the canonical form, and a step's memory stays in it; equal contents are one list. -/
theorem test_memory_form : State.reset.mem.wf = true ∧ (words [1#32, 2#32] k1).mem.wf = true ∧
    (Memory.set (Memory.set [] 5 1#8) 3 2#8) = Memory.set (Memory.set [] 3 2#8) 5 1#8 := by decide

/-- 95_test_vectors.md, program P1, lines 2 and 9, and a pseudo-instruction of R99. -/
theorem test_script_lines :
    readLine ['W', '3', '2', ' ', '0', 'x', '0', '1', '4', ',', ' ', '1', ' ', ';', 'L'] =
      some [.write .word 0x014#18 1#32] ∧
    readLine ['R', '3', '2', ' ', '0', 'x', '0', '0', 'C', ' ', '-', '>', ' ', '0', 'x', '2'] =
      some [.read .word 0x00C#18 (some 2#32)] ∧
    readLine ['C', 'M', 'D', ' ', 'p', 'a', 'c', 'k', '.', 'l'] = some [.cmd .packL] := by decide

/-- R99 and R67: a BYTES value above 255 is W8's `v`; and log 9: no data, no accesses. -/
theorem test_script_bytes :
    readLine ['B', 'Y', 'T', 'E', 'S', ' ', '0', 'x', '4', '0', ',', ' ', '3', '2', '1', ' ', '2'] =
      some [.bytes 0x40#18 [0x141#32, 2#32]] ∧
    (ScriptLine.bytes 0x40#18 [0x141#32, 2#32]).expand = [.write 0x40#18 .byte 0x141#32, .write 0x41#18 .byte 2#32] ∧
    (ScriptLine.bytes 0x40#18 []).expand = [] := by decide

theorem test_script_expand : (ScriptLine.words 0x10000#18 [1#32, 2#32]).expand =
    [.write 0x10000#18 .word 1#32, .write 0x10004#18 .word 2#32] ∧ ScriptLine.clrDone.expand = [.write 0x00C#18 .word 2#32] := by decide

/-! ### Witnesses: a state and operands that meet the hypotheses of each statement that has them

A clause of a statement has its own witness, at a boundary value of its range. -/

/-- A command in flight, issued on a state. -/
def issued (i : Instr) (s : State) : State := s.issue (encode i)

/-- After reset, with accesses for the host to make. -/
def queued (ops : List HostOp) : State := { State.reset with host := ops }

theorem witness_EngineStepRunsDecodedCommand :
    (issued .encr State.reset).busy = true ∧ (issued .encr State.reset).inReset = false ∧ (issued .encr State.reset).turns = [] ∧
    ({ issued .encr State.reset with turns := [.engine, .host] } : State).turns.head? = some .engine ∧
    decode (issued .encr State.reset).cmdLatch = .ok .encr := by decide

theorem witness_IllegalWordCompletesWithIllegalCmd : (State.reset.issue 0x08#32).mover = some .engine ∧
    (State.reset.issue 0x08#32).cmdLatch ∉
      [0x00#32, 0x01#32, 0x02#32, 0x03#32, 0x04#32, 0x05#32, 0x06#32, 0x07#32, 0x0F#32, 0x11#32, 0x12#32] := by decide

theorem witness_EveryCommandCompletes : (next? (exec .encr State.reset)).map (fun t => t.err) = some 1#4 := by decide

/-- LEN = 1025 is above the capacity of PACK, LEN = 1024 is not, and its last byte is `IBUF[1023]`. -/
theorem witness_PackWritesInputAsWords :
    let s (n : Word) : State := { State.reset with len := n }
    (s 1025#32).wmax < ((s 1025#32).len.toNat + 3) / 4 ∧ ((s 1024#32).len.toNat + 3) / 4 ≤ (s 1024#32).wmax ∧
    1023 < 4 * (((s 1024#32).len.toNat + 3) / 4) ∧ ¬ (Buf.wbuf.base ≤ 0x10400 ∧ 0x10400 < Buf.wbuf.base + 4 * (((s 1024#32).len.toNat + 3) / 4)) := by
  decide

/-- LEN = 1021 is above the capacity of PACK.L, LEN = 1020 is not. -/
theorem witness_PackLWritesInputAndLengthWord :
    let s (n : Word) : State := { State.reset with len := n }
    (s 1021#32).wmax < ((s 1021#32).len.toNat + 3) / 4 + 1 ∧ ((s 1020#32).len.toNat + 3) / 4 + 1 ≤ (s 1020#32).wmax ∧
    1019 < 4 * (((s 1020#32).len.toNat + 3) / 4) := by decide

theorem witness_UnpackWritesWordsAsBytes :
    let s (n : Word) : State := { State.reset with wcnt := n }
    (s 257#32).wmax < (s 257#32).wcnt.toNat ∧ (s 256#32).wcnt.toNat ≤ (s 256#32).wmax ∧ 1023 < 4 * (s 256#32).wcnt.toNat := by decide

/-- Four clauses: WCNT 0, WCNT 257, the length 9 of two words, the length 8 of two words. -/
theorem witness_UnpackLChecksAndWritesBytes :
    let s (n : Word) : State := words [0x64636261#32, n] k1
    State.reset.wcnt = 0#32 ∧
    (({ s 0#32 with wcnt := 257#32 } : State).wcnt ≠ 0#32 ∧ State.reset.wmax < ({ s 0#32 with wcnt := 257#32 } : State).wcnt.toNat) ∧
    ((s 9#32).wcnt ≠ 0#32 ∧ (s 9#32).wcnt.toNat ≤ (s 9#32).wmax ∧
      4 * (s 9#32).wcnt.toNat < ((s 9#32).wordAt ((s 9#32).wcnt.toNat - 1)).toNat) ∧
    ((s 8#32).wcnt ≠ 0#32 ∧ (s 8#32).wcnt.toNat ≤ (s 8#32).wmax ∧
      ((s 8#32).wordAt ((s 8#32).wcnt.toNat - 1)).toNat ≤ 4 * (s 8#32).wcnt.toNat) := by decide

theorem witness_PackWordsPutsBytesInOrder : k10Bytes.length < 2 ^ 32 ∧ 11 < 4 * ((k10Bytes.length + 3) / 4) := by decide

theorem witness_KeyWordsArePackedAndZeroPadded : (k10Bytes ++ [0#8, 0#8, 0#8, 0#8, 0#8, 0xff#8]).length = 16 ∧ 16 ≤ 16 ∧ 3 < 4 := by decide

/-- The longest bytes for the smallest capacity, and two whole words. -/
theorem witness_UnpackInvertsPack : Config.wmaxOk 2 = true ∧ [1#8, 2#8, 3#8, 4#8].length ≤ 4 * (2 - 1) ∧ cipherA.length = 4 * 2 := by decide

/-- The ends of each range of the table. -/
theorem witness_RoundCountTable : 2 ≤ 2 ∧ (9 ≤ 9 ∧ 9 ≤ 10 ∧ 10 ≤ 10) ∧ (11 ≤ 11 ∧ 13 ≤ 13) ∧ (14 ≤ 14 ∧ 17 ≤ 17) ∧ (18 ≤ 18 ∧ 26 ≤ 26) ∧
    (27 ≤ 27 ∧ 52 ≤ 52) ∧ 53 ≤ 53 ∧ [2, 8, 9, 10, 11, 13, 14, 17, 18, 26, 27, 52, 53].map roundCount =
      [32, 12, 11, 11, 10, 10, 9, 9, 8, 8, 7, 7, 6] := by decide

/-- The shortest array the transforms change, for `TransformsEqualTheIndexForm` and `TransformsAreInverse`. -/
theorem witness_TransformsEqualTheIndexForm : 2 ≤ ([1#32, 2#32] : List Word).length ∧
    indexRounds false k1 [1#32, 2#32] = [0x9406f153#32, 0x20e739ac#32] := by set_option maxRecDepth 20000 in decide

theorem witness_TransformsAreInverse : 2 ≤ ([1#32, 2#32] : List Word).length ∧
    decRounds [0x9406f153#32, 0x20e739ac#32] k1 = [1#32, 2#32] := by set_option maxRecDepth 20000 in decide

theorem witness_DecryptLoopRunsQTimes : 2 ≤ 2 ∧ 32 ≤ roundCount 2 ∧ roundCount 2 ≤ 32 ∧ 53 ≤ 53 := by decide

/-- The four clauses of ENCR and of DECR: WCNT 0, 257, 1 and the ends 2 and 256 of the range that runs rounds. -/
theorem witness_EncrTransformsWords :
    let s (n : Word) : State := { State.reset with wcnt := n }
    (s 0#32).wcnt = 0#32 ∧ ((s 257#32).wcnt ≠ 0#32 ∧ (s 257#32).wmax < (s 257#32).wcnt.toNat) ∧
    ((s 1#32).wcnt = 1#32 ∧ 1 ≤ (s 1#32).wmax) ∧ (2 ≤ (s 2#32).wcnt.toNat ∧ (s 2#32).wcnt.toNat ≤ (s 2#32).wmax) ∧
    (2 ≤ (s 256#32).wcnt.toNat ∧ (s 256#32).wcnt.toNat ≤ (s 256#32).wmax) := by decide

theorem witness_DecrTransformsWords :
    let s (n : Word) : State := { State.reset with wcnt := n }
    (s 0#32).wcnt = 0#32 ∧ ((s 257#32).wcnt ≠ 0#32 ∧ (s 257#32).wmax < (s 257#32).wcnt.toNat) ∧
    ((s 1#32).wcnt = 1#32 ∧ 1 ≤ (s 1#32).wmax) ∧ (2 ≤ (s 2#32).wcnt.toNat ∧ (s 2#32).wcnt.toNat ≤ (s 2#32).wmax) ∧
    (2 ≤ (s 256#32).wcnt.toNat ∧ (s 256#32).wcnt.toNat ≤ (s 256#32).wmax) := by decide

theorem witness_DecrAfterEncrRestoresBuffers : 1 ≤ (words [1#32] k1).wcnt.toNat ∧ (words [1#32] k1).wcnt.toNat ≤ (words [1#32] k1).wmax ∧
    ∃ t u, exec .encr (words [1#32] k1) = .next t ∧ exec .decr t = .next u := ⟨by decide, by decide, _, _, rfl, rfl⟩

/-- The clauses of ENCRYPT: LEN 0, 1021 and 1020; that of "A" completes with ERR = 0 (`test_encrypt_A`). -/
theorem witness_EncryptPacksMixesUnpacks :
    let s (n : Word) : State := { State.reset with len := n }
    (s 0#32).capacityInv = true ∧ (s 0#32).len = 0#32 ∧
    ((s 1021#32).len ≠ 0#32 ∧ (s 1021#32).wmax < ((s 1021#32).len.toNat + 3) / 4 + 1) ∧
    ((s 1020#32).len ≠ 0#32 ∧ ((s 1020#32).len.toNat + 3) / 4 + 1 ≤ (s 1020#32).wmax) := by decide

/-- The clauses of DECRYPT: LEN 0, 1025 and 1024; for one word, the passthrough of a length above 4 and of 4. -/
theorem witness_DecryptPacksMixesUnpacks :
    let s (n : Word) : State := { State.reset with len := n }
    ((s 0#32).capacityInv = true ∧ (s 0#32).len = 0#32) ∧
    ((s 1025#32).len ≠ 0#32 ∧ (s 1025#32).wmax < ((s 1025#32).len.toNat + 3) / 4) ∧
    ((s 1024#32).len ≠ 0#32 ∧ ((s 1024#32).len.toNat + 3) / 4 ≤ (s 1024#32).wmax) ∧
    4 * 1 < ((packWords ((input [5#8, 0#8, 0#8, 0#8]).bytes .ibuf 4) false).getD (1 - 1) 0#32).toNat ∧
    ((packWords ((input [4#8, 0#8, 0#8, 0#8]).bytes .ibuf 4) false).getD (1 - 1) 0#32).toNat ≤ 4 * 1 := by decide

theorem witness_CiphertextLength : (input [0x41#8]).capacityInv = true ∧
    (next? (exec .encrypt (input [0x41#8]))).map (fun t => t.err) = some 0#4 := by set_option maxRecDepth 20000 in decide

/-- ENCRYPT of "A", then a block whose IBUF holds the output and whose key bytes are the same. -/
theorem witness_DecryptInvertsEncrypt : (input [0x41#8]).capacityInv = true ∧ 1 ≤ (input [0x41#8]).len.toNat ∧
    (input [0x41#8]).len.toNat ≤ 4 * ((input [0x41#8]).wmax - 1) ∧ (input cipherA).wmax = (input [0x41#8]).wmax ∧
    (input cipherA).klen = (input [0x41#8]).klen ∧
    (next? (exec .encrypt (input [0x41#8]))).map (fun t => (t.outlen, t.bytes .obuf 8)) =
      some ((input cipherA).len, (input cipherA).bytes .ibuf 8) ∧
    (∀ i < 10, (input cipherA).byteAt .kbuf i = (input [0x41#8]).byteAt .kbuf i) := by set_option maxRecDepth 20000 in decide

/-- The six key bytes no one wrote are the same draw in both blocks. -/
theorem witness_DecryptInvertsEncrypt_draw : (input cipherA).draw = (input [0x41#8]).draw ∧
    ∀ i < 6, (input cipherA).mem.get? (Buf.kbuf.base + 10 + i) = none ∧ (input [0x41#8]).mem.get? (Buf.kbuf.base + 10 + i) = none := by
  decide

/-- Two blocks that agree on the inputs and differ in WBUF, in KEY and in the draw. -/
theorem witness_FacadeDependsOnlyOnItsInputs :
    let s := input [0x41#8]
    let s' : State := { (input [0x41#8]).storeWords [7#32] with key := k1, draw := 3 }
    s.capacityInv = true ∧ s'.wmax = s.wmax ∧ s'.len = s.len ∧ s'.klen = s.klen ∧ s.klen.toNat ≤ 16 ∧ s'.key ≠ s.key ∧
    (∀ j < s.len.toNat, s'.byteAt .ibuf j = s.byteAt .ibuf j) ∧ (∀ j < s.klen.toNat, s'.byteAt .kbuf j = s.byteAt .kbuf j) := by decide

/-- The clauses: empty, above the capacity, a length word above the bound, one at the bound, and a command without a length word. -/
theorem witness_ErrorCodeIsTheFirstInPriority :
    let s (n : Word) : State := words [0x64636261#32, n] k1
    State.reset.capacityInv = true ∧ emptyInput .unpackL State.reset ∧
    (¬ emptyInput .pack { State.reset with len := 1025#32 } ∧ overCapacity .pack { State.reset with len := 1025#32 }) ∧
    (¬ emptyInput .unpackL (s 9#32) ∧ ¬ overCapacity .unpackL (s 9#32) ∧
      (next? (exec .unpackL (s 9#32))).map (fun t => decide (4 * t.wcnt.toNat < (t.wordAt (t.wcnt.toNat - 1)).toNat)) = some true) ∧
    (¬ emptyInput .unpackL (s 8#32) ∧ ¬ overCapacity .unpackL (s 8#32) ∧
      (next? (exec .unpackL (s 8#32))).map (fun t => decide ((t.wordAt (t.wcnt.toNat - 1)).toNat ≤ 4 * t.wcnt.toNat)) = some true) ∧
    (¬ emptyInput .pack State.reset ∧ ¬ overCapacity .pack State.reset) := by
  refine ⟨by decide, ?_, ⟨?_, ?_⟩, ⟨?_, ?_, by decide⟩, ⟨?_, ?_, by decide⟩, ?_, ?_⟩ <;>
    simp only [emptyInput, overCapacity] <;> decide

theorem witness_ErrorChangesOnlyStatusAndOutlen : State.reset.capacityInv = true ∧
    ∃ t, exec .encr State.reset = .next t ∧ t.err ≠ 0#4 ∧ ¬ (Instr.encr = .decrypt ∧ t.err = 2#4) := ⟨by decide, _, rfl, by decide, by decide⟩

theorem witness_FailedCommandFailsAgain : State.reset.capacityInv = true ∧
    ∃ t u, exec .encr State.reset = .next t ∧ t.err ≠ 0#4 ∧ exec .encr (t.issue (encode .encr)) = .next u :=
  ⟨by decide, _, _, rfl, by decide, rfl⟩

theorem witness_CommandsNeverWriteTheirInputs : (input [0x41#8]).capacityInv = true ∧ Instr.pack ≠ .srst ∧
    ∃ t, exec .pack (input [0x41#8]) = .next t := ⟨by decide, by decide, _, rfl⟩

/-- OBUF's last byte is read but not written; KBUF's last word is written. -/
theorem witness_AccessesCompleteExactlyWhenLegal : State.reset.capacityInv = true ∧ readLegal 256 0x30400 .byte = true ∧
    writeLegal 256 0x30400 .byte = false ∧ readLegal 256 0x30400 .word = false ∧ writeLegal 256 0x4C .word = true ∧
    readLegal 256 0x24 .word = true ∧ readLegal 256 0x28 .word = false ∧ readLegal 256 0x22 .half = false := by decide

/-- The last byte of IBUF, and the first byte above the registers. -/
theorem witness_BufferWriteStoresItsBytes : State.reset.capacityInv = true ∧ 0x40 ≤ 0x203FF ∧ writeLegal State.reset.wmax 0x203FF .byte = true ∧
    0x40 ≤ 0x40 ∧ writeLegal State.reset.wmax 0x40 .word = true := by decide

theorem witness_WbufByteView : State.reset.capacityInv = true ∧ 255 < State.reset.wmax ∧ 3 < 4 ∧ 254 ≠ 255 := by decide

theorem witness_ReadOnlyRegistersIgnoreWrites : 0x024 ∈ [0x000, 0x004, 0x01C, 0x024] := by decide

theorem witness_CmdWriteIssues :
    let s := queued [.write 0x008#18 .word 6#32]
    (s.host = .write 0x008#18 .word 6#32 :: [] ∧ s.busy = false ∧ s.mover = some .host) ∧
    (issued .nop s).host = .write 0x008#18 .word 6#32 :: [] ∧ (issued .nop s).busy = true ∧ (issued .nop s).mover ≠ some .platform := by decide

theorem witness_LegalHostAccessIsPerformed :
    let s := queued [.read 0x000#18 .word]
    let u := queued [.write 0x203FF#18 .byte 0x41#32]
    (s.mover = some .host ∧ s.host = .read 0x000#18 .word :: [] ∧ s.memRead (0x000#18).toNat .word = some 0x58544541#32) ∧
    (u.mover = some .host ∧ u.host = .write 0x203FF#18 .byte 0x41#32 :: [] ∧
      u.memWrite (0x203FF#18).toNat .byte 0x41#32 = some (u.storeCells 0x203FF [0x41#8])) := by decide

theorem witness_IllegalAccessIsABusError :
    let s := queued [.read 0x028#18 .word]
    let u := queued [.write 0x30000#18 .byte 0#32]
    (s.capacityInv = true ∧ s.mover = some .host ∧ s.host = .read 0x028#18 .word :: [] ∧
      readLegal s.wmax (0x028#18).toNat .word = false) ∧
    (u.capacityInv = true ∧ u.mover = some .host ∧ u.host = .write 0x30000#18 .byte 0#32 :: [] ∧
      writeLegal u.wmax (0x30000#18).toNat .byte = false) := by decide

/-- A held access that will be a bus error. -/
theorem witness_AccessesAreHeldWhileBusy :
    let s := issued .nop (queued [.read 0x028#18 .word])
    s.busy = true ∧ s.host = .read 0x028#18 .word :: [] ∧ HostOp.read 0x028#18 .word ≠ .read 0x00C#18 .word ∧
    HostOp.read 0x028#18 .word ≠ .wait := by decide

theorem witness_StatusReadDuringCommandAdmitsBothValues :
    let s := issued .nop (queued [.read 0x00C#18 .word])
    s.inv = true ∧ s.busy = true ∧ s.inReset = false ∧ s.host = .read 0x00C#18 .word :: [] := by decide

theorem witness_IssuedCommandCompletes :
    let s : State := { issued .nop (queued [.read 0x00C#18 .word]) with turns := [.host, .host] }
    s.busy = true ∧ s.inReset = false ∧ s.pins = [] := by decide

theorem witness_DoneRisesOnlyByCompletion :
    (issued .nop State.reset).done = false ∧ (next? (step (issued .nop State.reset))).map (fun t => t.done) = some true := by decide

/-- The clauses: a command that sets DONE, SRST, the write that clears DONE, the write that masks. -/
theorem witness_IrqFollowsDoneAndEnable :
    (∃ t, exec .nop State.reset = .next t) ∧ (∃ t, exec .srst State.reset = .next t) ∧
    (∃ t, State.reset.memWrite 0x00C .word 2#32 = some t) ∧ (2#32).getLsbD 1 = true ∧
    (∃ t, State.reset.memWrite 0x010 .word 2#32 = some t) ∧ (2#32).getLsbD 0 = false :=
  ⟨⟨_, rfl⟩, ⟨_, rfl⟩, ⟨_, rfl⟩, by decide, ⟨_, rfl⟩, by decide⟩

theorem witness_StepKeepsTheInvariant : (issued .encrypt (input [0x41#8])).inv = true ∧
    (next? (step (issued .encrypt (input [0x41#8])))).map (fun t => t.rounds) = some 32#32 := by set_option maxRecDepth 20000 in decide

theorem witness_LegalHostRunsSafely :
    let s := queued [.write 0x008#18 .word 0#32, .wait, .read 0x00C#18 .word]
    s.capacityInv = true ∧ s.hostLegal = true := by decide

theorem witness_OnlyTheEngineWritesObuf :
    let s := queued [.write 0x10000#18 .word 1#32]
    s.capacityInv = true ∧ s.mover ≠ some .engine ∧ (next? (step s)).map (fun t => t.draw) = some s.draw := by decide

/-- RST_N is asserted while a command is in flight, and released with an access waiting. -/
theorem witness_HardwareResetAbandonsTheCommand :
    let s : State := { issued .encr State.reset with pins := [.assertReset], turns := [.platform] }
    let u : State := { queued [.read 0x000#18 .word] with inReset := true, pins := [.releaseReset] }
    (s.mover = some .platform ∧ s.pins = (if true then .assertReset else .releaseReset) :: [] ∧ s.busy = true) ∧
    (u.mover = some .platform ∧ u.pins = (if false then .assertReset else .releaseReset) :: [] ∧ u.host ≠ []) := by decide

theorem witness_NothingIsAnsweredDuringReset :
    let s : State := { queued [.read 0x000#18 .word] with inReset := true }
    s.inReset = true ∧ s.pins = [] := by decide

/-- The ends of the range of WMAX. -/
theorem witness_CommandsOnTheResetState : Config.wmaxOk 2 = true ∧ Config.wmaxOk 16383 = true ∧
    ({ State.reset with wmax := 2, draw := 7 } : State).wmax = 2 := by decide

theorem witness_ScriptMnemonicsAndCmd : readMnemonic ['P', 'a', 'c', 'K', '.', 'l'] = some .packL ∧
    ['P', 'a', 'c', 'K', '.', 'l'].map Char.toUpper = ['P', 'A', 'C', 'K', '.', 'L'] := by decide

theorem witness_IdleStepChangesNothing : State.reset.busy = false ∧ State.reset.host = [] ∧ State.reset.pins = [] := by decide

end Sys2Proof.Tests
end

/-! SUPPORT. The machine's invariant (Safety.lean) along a step. Its clauses on flight and reset speak of the moment, so they are
argued for each agent's move; the others are bounds on stored values, which every shared operation keeps (`State.ValuesInv`). -/

namespace Sys2Proof.Machine

/-- The clauses of `State.inv` that bound stored values: all but `flightInv` and `resetInv`. -/
structure State.ValuesInv (s : State) : Prop where
  capacity : s.capacityInv = true
  wf : s.mem.wf = true
  listed : (s.mem.all fun c => (bufAt s.wmax c.1).isSome) = true
  klen : s.klen.toNat ≤ 16
  err : s.err.toNat ≤ 4
  rounds : s.rounds.toNat ∈ roundsValues
  outlen : s.outlen.toNat ≤ 4 * s.wmax

/-- The invariant in its parts: the bounds on values, the flight clause and the reset clause. -/
theorem State.inv_iff (s : State) : s.inv = true ↔
    s.ValuesInv ∧ (s.busy = true → s.done = false ∧ s.err = 0#4) ∧ (s.inReset = true → s.resetRegs = s) := by
  have hflight : s.flightInv = true ↔ (s.busy = true → s.done = false ∧ s.err = 0#4) := by
    cases hb : s.busy <;> simp [State.flightInv, hb]
  have hreset : s.resetInv = true ↔ (s.inReset = true → s.resetRegs = s) := by
    cases hr : s.inReset <;> simp [State.resetInv, hr]
  simp only [State.inv, Bool.and_eq_true, hflight, hreset, State.memoryInv, State.klenInv, State.errInv, State.roundsInv,
    State.outlenInv, decide_eq_true_eq, List.contains_iff_mem]
  constructor
  · rintro ⟨⟨⟨⟨⟨⟨⟨hcap, hwf, hlisted⟩, hklen⟩, herr⟩, hrounds⟩, houtlen⟩, hf⟩, hr⟩
    exact ⟨⟨hcap, hwf, hlisted, hklen, herr, hrounds, houtlen⟩, hf, hr⟩
  · rintro ⟨⟨hcap, hwf, hlisted, hklen, herr, hrounds, houtlen⟩, hf, hr⟩
    exact ⟨⟨⟨⟨⟨⟨⟨hcap, hwf, hlisted⟩, hklen⟩, herr⟩, hrounds⟩, houtlen⟩, hf⟩, hr⟩

/-! ### The values the commands write -/

theorem ErrorCode.code_le_four (e : ErrorCode) : e.code.toNat ≤ 4 := by
  cases e <;> decide

/-- The clamp of a KLEN write (R34). -/
theorem clampKlen_toNat_le (v : Word) : (clampKlen v).toNat ≤ 16 :=
  (BitVec.toNat_ofNat ..).trans_le ((Nat.mod_le ..).trans (Nat.min_le_right ..))

/-- R141's round counts are among R35's values of ROUNDS. -/
theorem roundCount_mem_roundsValues {n : Nat} (hn : 2 ≤ n) : roundCount n ∈ roundsValues := by
  have hsmall : ∀ n < 53, 2 ≤ n → roundCount n ∈ roundsValues := by decide
  rcases Nat.lt_or_ge n 53 with h | h
  · exact hsmall n h hn
  · rw [roundCount, Nat.div_eq_of_lt h]
    decide

/-- Every value of ROUNDS fits the register. -/
theorem toNat_ofNat_of_mem_roundsValues : ∀ v ∈ roundsValues, (BitVec.ofNat 32 v).toNat = v := by
  decide

/-- An offset inside a buffer is an offset of some buffer. -/
theorem bufAt_isSome_of_mem {wmax off : Nat} (b : Buf) (hlo : b.base ≤ off) (hhi : off < b.base + b.extent wmax) :
    (bufAt wmax off).isSome = true := by
  rw [bufAt, List.find?_isSome]
  exact ⟨b, by cases b <;> simp, by simp [Buf.holds, hlo, hhi]⟩

/-- `packInput` never wraps WCNT: the words of any input can be counted in 32 bits. -/
theorem State.packInput_wcnt_toNat (s : State) (l : Bool) :
    (s.packInput l).wcnt.toNat = ceil4 s.len.toNat + (if l then 1 else 0) := by
  have := ceil4_len_le s
  simp only [State.packInput_wcnt, packWords_length, State.inputBytes_length, BitVec.toNat_ofNat]
  exact Nat.mod_eq_of_lt (by split <;> omega)

/-! ### The shared operations keep the bounds -/

namespace State.ValuesInv

variable {s t : State}

/-- The bounds depend on the fields they name only. -/
theorem of_eq (h : s.ValuesInv) (hwmax : t.wmax = s.wmax) (hmem : t.mem = s.mem) (hklen : t.klen = s.klen) (herr : t.err = s.err)
    (hrounds : t.rounds = s.rounds) (houtlen : t.outlen = s.outlen) : t.ValuesInv where
  capacity := by rw [State.capacityInv, hwmax]; exact h.capacity
  wf := hmem ▸ h.wf
  listed := by rw [hmem, hwmax]; exact h.listed
  klen := hklen ▸ h.klen
  err := herr ▸ h.err
  rounds := hrounds ▸ h.rounds
  outlen := by rw [houtlen, hwmax]; exact h.outlen

theorem complete (h : s.ValuesInv) (e : ErrorCode) : (s.complete e).ValuesInv :=
  { h with err := e.code_le_four }

theorem raise (h : s.ValuesInv) (e : ErrorCode) : (s.raise e).ValuesInv :=
  { h with err := e.code_le_four, outlen := Nat.zero_le _ }

theorem resetRegs (h : s.ValuesInv) : s.resetRegs.ValuesInv :=
  { h with klen := Nat.zero_le _, err := Nat.zero_le _, rounds := List.mem_cons_self, outlen := Nat.zero_le _ }

theorem hardwareReset (h : s.ValuesInv) : s.hardwareReset.ValuesInv :=
  { h.resetRegs with wf := rfl, listed := rfl }

/-- A store that stays inside one buffer keeps the bounds. -/
theorem storeCells (h : s.ValuesInv) (b : Buf) {a : Nat} {vs : List Byte} (hlo : b.base ≤ a)
    (hhi : a + vs.length ≤ b.base + b.extent s.wmax) : (s.storeCells a vs).ValuesInv where
  capacity := by rw [State.capacityInv, State.storeCells_wmax]; exact h.capacity
  wf := State.storeCells_wf h.wf vs a
  listed := by
    rw [State.storeCells_wmax]
    exact State.storeCells_all (p := fun off => (bufAt s.wmax off).isSome) h.listed vs a
      fun i hi => bufAt_isSome_of_mem b (by omega) (by omega)
  klen := by simpa using h.klen
  err := by simpa using h.err
  rounds := by simpa using h.rounds
  outlen := by simpa using h.outlen

/-- Words that fit the capacity are stored inside WBUF. -/
theorem storeWords (h : s.ValuesInv) {ws : List Word} (hws : ws.length ≤ s.wmax) : (s.storeWords ws).ValuesInv :=
  h.storeCells .wbuf le_rfl (by simp only [wordBytes_length, Buf.extent]; omega)

theorem packInput (h : s.ValuesInv) (l : Bool) (hfit : ceil4 s.len.toNat + (if l then 1 else 0) ≤ s.wmax) :
    (s.packInput l).ValuesInv :=
  (h.storeWords (ws := packWords s.inputBytes l) (by simpa using hfit)).of_eq rfl rfl rfl rfl rfl rfl

theorem packKey (h : s.ValuesInv) : s.packKey.ValuesInv :=
  h.of_eq rfl rfl rfl rfl rfl rfl

/-- The round step keeps the bounds when WCNT passes the commands' checks. -/
theorem mixWords (h : s.ValuesInv) {r : List Word → KeyWords → List Word} (hr : ∀ w k, (r w k).length = w.length)
    (hpos : s.wcnt ≠ 0#32) (hfit : s.wcnt.toNat ≤ s.wmax) : (s.mixWords r).ValuesInv := by
  unfold State.mixWords
  split
  · exact { h with rounds := List.mem_cons_self }
  · next hone =>
    have htwo : 2 ≤ s.wcnt.toNat := by
      have hne_zero : s.wcnt.toNat ≠ 0 := fun e => hpos (BitVec.eq_of_toNat_eq e)
      have hne_one : s.wcnt.toNat ≠ 1 := fun e => hone (BitVec.eq_of_toNat_eq e)
      omega
    have hmem := roundCount_mem_roundsValues htwo
    have hstore : (s.storeWords (r s.wordArray s.key)).ValuesInv := h.storeWords (by rw [hr, State.wordArray_length]; exact hfit)
    exact { hstore with rounds := (toNat_ofNat_of_mem_roundsValues _ hmem).symm ▸ hmem }

theorem setOutlen (h : s.ValuesInv) {m : Nat} (hm : m ≤ 4 * s.wmax) :
    ({ s with outlen := BitVec.ofNat 32 m } : State).ValuesInv :=
  { h with outlen := (BitVec.toNat_ofNat ..).trans_le ((Nat.mod_le ..).trans hm) }

/-- Unpacking an array that fits the capacity writes inside OBUF and leaves OUTLEN in its range. -/
theorem finishUnpack (h : s.ValuesInv) (l : Bool) (hfit : s.wcnt.toNat ≤ s.wmax) : (s.finishUnpack l).ValuesInv := by
  rcases State.finishUnpack_cases s l with ⟨-, -, heq⟩ | ⟨m, -, hm, heq⟩ <;> rw [heq]
  · exact h.raise _
  · have hstore : (s.storeOut (unpackOut s.wordArray m)).ValuesInv :=
      h.storeCells .obuf le_rfl (by simp only [unpackOut_length, Buf.extent]; omega)
    exact (hstore.setOutlen (by simp only [State.storeOut_wmax]; omega)).complete .ok

theorem writeReg (h : s.ValuesInv) (v : Word) (r : Reg) : (s.writeReg v r).ValuesInv := by
  cases r
  case cmd => exact { h with err := Nat.zero_le _ }
  case klen => exact { h with klen := clampKlen_toNat_le v }
  all_goals exact h.of_eq rfl rfl rfl rfl rfl rfl

theorem memWrite (h : s.ValuesInv) {off : Nat} {size : AccessSize} {v : Word} (ht : s.memWrite off size v = some t) :
    t.ValuesInv := by
  rcases State.memWrite_cases ht with ⟨r, -, -, rfl⟩ | ⟨b, -, hb, -, hadm, rfl⟩
  · exact h.writeReg v r
  · simp only [Buf.admits, Bool.and_eq_true, decide_eq_true_eq] at hadm
    obtain ⟨-, hend⟩ := hadm
    obtain ⟨hbase, -⟩ := bufAt_some hb
    exact h.storeCells b hbase (by simpa using hend)

/-- The steps ENCRYPT and DECRYPT share after their checks (R170, R172): an input that is not empty and fits the capacity packs to
an array that passes the checks of the round step and of the unpack. -/
theorem packMixAndUnpack (h : s.ValuesInv) (l l' : Bool) {r : List Word → KeyWords → List Word}
    (hr : ∀ w k, (r w k).length = w.length) (hlen : s.len ≠ 0#32) (hfit : ceil4 s.len.toNat + (if l then 1 else 0) ≤ s.wmax) :
    (((s.packInput l).packKey.mixWords r).finishUnpack l').ValuesInv := by
  have hwcnt := s.packInput_wcnt_toNat l
  have hpos : (s.packInput l).packKey.wcnt ≠ 0#32 := by
    have hne : s.len.toNat ≠ 0 := fun e => hlen (BitVec.eq_of_toNat_eq e)
    intro hzero
    rw [← State.packKey_wcnt, hzero] at hwcnt
    simp only [ceil4, BitVec.toNat_ofNat, Nat.zero_mod] at hwcnt
    omega
  have hle : (s.packInput l).packKey.wcnt.toNat ≤ (s.packInput l).packKey.wmax := by
    rw [State.packKey_wcnt, hwcnt]
    simpa using hfit
  exact ((h.packInput l hfit).packKey.mixWords hr hpos hle).finishUnpack l' (by simpa using hle)

end State.ValuesInv

/-! ### The commands keep the bounds -/

/-- Every command keeps the bounds, from every state: each of its checks (R202 to R204) is what its stores need. -/
theorem exec_valuesInv (i : Instr) {s : State} (h : s.ValuesInv) : ∃ t, exec i s = .next t ∧ t.ValuesInv := by
  cases i
  case nop => exact ⟨_, rfl, h.complete _⟩
  case srst => exact ⟨_, rfl, h.resetRegs⟩
  case keypack => exact ⟨_, rfl, h.packKey.complete _⟩
  case pack =>
    simp only [exec, execPack]
    split
    · exact ⟨_, rfl, h.raise _⟩
    · next hfit => exact ⟨_, rfl, (h.packInput false (Nat.le_of_not_gt hfit)).complete _⟩
  case packL =>
    simp only [exec, execPackL]
    split
    · exact ⟨_, rfl, h.raise _⟩
    · next hfit => exact ⟨_, rfl, (h.packInput true (Nat.le_of_not_gt hfit)).complete _⟩
  case unpack =>
    simp only [exec, execUnpack]
    split
    · exact ⟨_, rfl, h.raise _⟩
    · next hfit => exact ⟨_, rfl, h.finishUnpack _ (Nat.le_of_not_gt hfit)⟩
  case unpackL =>
    simp only [exec, execUnpackL]
    split
    · exact ⟨_, rfl, h.raise _⟩
    split
    · exact ⟨_, rfl, h.raise _⟩
    · next hfit => exact ⟨_, rfl, h.finishUnpack _ (Nat.le_of_not_gt hfit)⟩
  case encr =>
    simp only [exec, execEncr]
    split
    · exact ⟨_, rfl, h.raise _⟩
    split
    · exact ⟨_, rfl, h.raise _⟩
    · next hpos hfit => exact ⟨_, rfl, (h.mixWords encRounds_length hpos (Nat.le_of_not_gt hfit)).complete _⟩
  case decr =>
    simp only [exec, execDecr]
    split
    · exact ⟨_, rfl, h.raise _⟩
    split
    · exact ⟨_, rfl, h.raise _⟩
    · next hpos hfit => exact ⟨_, rfl, (h.mixWords decRounds_length hpos (Nat.le_of_not_gt hfit)).complete _⟩
  case encrypt =>
    simp only [exec, execEncrypt]
    split
    · exact ⟨_, rfl, h.raise _⟩
    split
    · exact ⟨_, rfl, h.raise _⟩
    · next hlen hfit => exact ⟨_, rfl, h.packMixAndUnpack true false encRounds_length hlen (Nat.le_of_not_gt hfit)⟩
  case decrypt =>
    simp only [exec, execDecrypt]
    split
    · exact ⟨_, rfl, h.raise _⟩
    split
    · exact ⟨_, rfl, h.raise _⟩
    · next hlen hfit => exact ⟨_, rfl, h.packMixAndUnpack false true decRounds_length hlen (Nat.le_of_not_gt hfit)⟩

/-! ### Each agent's move keeps the invariant -/

/-- The model's queues (log 5, log 6, log 8) are no part of the invariant. -/
theorem State.inv_withQueues {s : State} (h : s.inv = true) (pins : List PinEvent) (host : List HostOp) (replies : List Word)
    (turns : List Agent) : ({ s with pins := pins, host := host, replies := replies, turns := turns } : State).inv = true := by
  obtain ⟨hv, hf, hr⟩ := s.inv_iff.mp h
  refine (State.inv_iff _).mpr ⟨hv.of_eq rfl rfl rfl rfl rfl rfl, hf, fun hreset => ?_⟩
  exact congrArg (fun u : State => { u with pins := pins, host := host, replies := replies, turns := turns }) (hr hreset)

/-- Out of reset the invariant is the bounds and the flight clause. -/
theorem State.ValuesInv.inv_of_not_inReset {s : State} (h : s.ValuesInv) (hr : s.inReset = false)
    (hf : s.busy = true → s.done = false ∧ s.err = 0#4) : s.inv = true :=
  s.inv_iff.mpr ⟨h, hf, by simp [hr]⟩

/-- The engine's move ends the flight (R210), so the bounds are all that is left to keep. -/
theorem engineMove_inv {s t : State} (h : s.inv = true) (hc : s.engineCanMove = true) (ht : engineMove s = .next t) :
    t.inv = true := by
  obtain ⟨hv, -, -⟩ := s.inv_iff.mp h
  simp only [State.engineCanMove, Bool.and_eq_true, Bool.not_eq_true'] at hc
  obtain ⟨-, hr⟩ := hc
  have hvt : ∃ t', engineMove s = .next t' ∧ t'.ValuesInv := by
    rcases engineMove_cases s with ⟨i, -, heq⟩ | ⟨e, -, heq⟩ <;> rw [heq]
    · exact exec_valuesInv i hv
    · exact ⟨_, rfl, hv.raise _⟩
  obtain ⟨t₁, ht₁, hv₁⟩ := hvt
  obtain ⟨t₂, ht₂, -, -, hr₂, -, -, -, -, hb₂⟩ := engineMove_frame s
  obtain rfl : t = t₁ := by simpa [ht] using ht₁
  obtain rfl : t = t₂ := by simpa [ht] using ht₂
  exact hv₁.inv_of_not_inReset (hr₂.trans hr) (by simp [hb₂])

/-- A write that finds no command in flight starts one by the issue (R211) only. -/
theorem State.memWrite_flight {s t : State} {off : Nat} {size : AccessSize} {v : Word} (hb : s.busy = false)
    (ht : s.memWrite off size v = some t) (hbt : t.busy = true) : t.done = false ∧ t.err = 0#4 := by
  rcases State.memWrite_cases ht with ⟨r, -, -, rfl⟩ | ⟨b, -, -, -, -, rfl⟩
  · cases r
    case cmd => exact ⟨rfl, rfl⟩
    all_goals exact absurd (hb.symm.trans hbt) (by decide)
  · simp [hb] at hbt

/-- When the access at the head of the queue is made (R70, R240). -/
theorem State.hostCanMove_iff_of_cons {s : State} {op : HostOp} {rest : List HostOp} (h : s.host = op :: rest) :
    s.hostCanMove = true ↔ s.inReset = false ∧ (s.busy = false ∨ op.isStatusRead = true) := by
  simp [State.hostCanMove, h]

/-- A write is held while a command is in flight (R70), and no access is made during reset (R240). -/
theorem State.hostMove_inv {s t : State} (h : s.inv = true) (hc : s.hostCanMove = true) (ht : s.hostMove = .next t) :
    t.inv = true := by
  obtain ⟨hv, -, -⟩ := s.inv_iff.mp h
  rcases s.hostMove_cases with ⟨-, heq⟩ | ⟨off, size, rest, v, -, -, heq⟩ | ⟨off, size, rest, -, -, heq⟩ |
    ⟨off, size, v, rest, u, hhost, hu, heq⟩ | ⟨off, size, v, rest, -, -, heq⟩ | ⟨rest, -, heq | ⟨-, heq⟩⟩ <;>
    rw [heq] at ht <;> cases ht
  · exact h
  · exact State.inv_withQueues h _ _ _ _
  · obtain ⟨hr, hheld⟩ := (State.hostCanMove_iff_of_cons hhost).mp hc
    have hb : s.busy = false := hheld.resolve_right Bool.false_ne_true
    obtain ⟨-, -, hru, -⟩ := State.memWrite_frame hu
    have hinv : u.inv = true := (hv.memWrite hu).inv_of_not_inReset (hru.trans hr) (State.memWrite_flight hb hu)
    exact State.inv_withQueues hinv _ _ _ _
  · exact h
  · exact State.inv_withQueues h _ _ _ _

/-- A hardware reset leaves every register at its reset value, whatever the pin does next (R240, R242). -/
theorem State.hardwareReset_inv {s : State} (h : s.inv = true) (r : Bool) (rest : List PinEvent) :
    ({ s.hardwareReset with inReset := r, pins := rest } : State).inv = true := by
  obtain ⟨hv, -, -⟩ := s.inv_iff.mp h
  exact (State.inv_iff _).mpr ⟨hv.hardwareReset.of_eq rfl rfl rfl rfl rfl rfl, fun hb => absurd hb Bool.false_ne_true, fun _ => rfl⟩

theorem State.platformMove_inv {s t : State} (h : s.inv = true) (ht : s.platformMove = .next t) : t.inv = true := by
  rcases s.platformMove_cases with ⟨-, heq⟩ | ⟨rest, -, heq⟩ | ⟨rest, -, heq⟩ <;> rw [heq] at ht <;> cases ht
  · exact h
  · exact State.hardwareReset_inv h true rest
  · exact State.hardwareReset_inv h false rest

/-! ### The step -/

theorem step_inv {s t : State} (h : s.inv = true) (ht : step s = .next t) : t.inv = true := by
  have hn : s.nextTurn.inv = true := State.inv_withQueues h _ _ _ _
  rcases step_cases s with ⟨hm, heq⟩ | ⟨hm, heq⟩ | ⟨-, heq⟩ | ⟨-, heq⟩ <;> rw [heq] at ht
  · exact engineMove_inv hn (State.mover_canMove hm) ht
  · exact State.hostMove_inv hn (State.mover_canMove hm) ht
  · exact State.platformMove_inv hn ht
  · cases ht; exact hn

theorem State.hostMove_wmax {s t : State} (ht : s.hostMove = .next t) : t.wmax = s.wmax := by
  rcases s.hostMove_cases with ⟨-, heq⟩ | ⟨off, size, rest, v, -, -, heq⟩ | ⟨off, size, rest, -, -, heq⟩ |
    ⟨off, size, v, rest, u, -, hu, heq⟩ | ⟨off, size, v, rest, -, -, heq⟩ | ⟨rest, -, heq | ⟨-, heq⟩⟩ <;>
    rw [heq] at ht <;> cases ht
  · rfl
  · rfl
  · obtain ⟨hwmax, -⟩ := State.memWrite_frame hu
    exact hwmax
  · rfl
  · rfl

theorem State.platformMove_wmax {s t : State} (ht : s.platformMove = .next t) : t.wmax = s.wmax := by
  rcases s.platformMove_cases with ⟨-, heq⟩ | ⟨rest, -, heq⟩ | ⟨rest, -, heq⟩ <;> rw [heq] at ht <;> cases ht <;> rfl

theorem step_wmax {s t : State} (ht : step s = .next t) : t.wmax = s.wmax := by
  rcases step_cases s with ⟨-, heq⟩ | ⟨-, heq⟩ | ⟨-, heq⟩ | ⟨-, heq⟩ <;> rw [heq] at ht
  · obtain ⟨u, hu, hwmax, -⟩ := engineMove_frame s.nextTurn
    obtain rfl : t = u := by simpa [ht] using hu
    exact hwmax
  · exact State.hostMove_wmax (s := s.nextTurn) ht
  · exact State.platformMove_wmax (s := s.nextTurn) ht
  · cases ht; rfl

/-- Settles O51: each agent's move keeps the invariant, and none writes WMAX. -/
theorem stepKeepsTheInvariant : Obligations.StepKeepsTheInvariant := by
  unfold Obligations.StepKeepsTheInvariant
  exact fun s t ht => ⟨step_wmax ht, fun h => step_inv h ht⟩

end Sys2Proof.Machine

/-! SUPPORT. The registers at the port (10_state.md R22 to R36), and who writes the inputs KBUF, IBUF, LEN and KLEN, the output OBUF
and the flag DONE. -/

namespace Sys2Proof.Machine

/-! ### The registers at the port -/

theorem State.memRead_of_regAt (s : State) (r : Reg) {off : Nat} (h : regAt off = some r) :
    s.memRead off .word = some (s.readReg r) := by
  simp [State.memRead, h]

theorem State.memWrite_of_regAt (s : State) (v : Word) (r : Reg) {off : Nat} (h : regAt off = some r) :
    s.memWrite off .word v = some (s.writeReg v r) := by
  simp [State.memWrite, h]

@[simp] theorem flagWord_getLsbD (b : Bool) (i : Nat) : (flagWord b).getLsbD i = (decide (i = 0) && b) := by
  cases b <;> simp [flagWord, BitVec.getLsbD_one]

/-- STATUS bit by bit: BUSY, DONE, two reserved bits, ERR, and reserved bits to the top (R26). -/
theorem State.statusWord_getLsbD (s : State) (i : Nat) : s.statusWord.getLsbD i =
    if i = 0 then s.busy else if i = 1 then s.done else decide (4 ≤ i) && s.err.getLsbD (i - 4) := by
  unfold State.statusWord
  simp only [BitVec.getLsbD_or, BitVec.getLsbD_shiftLeft, BitVec.getLsbD_setWidth, flagWord_getLsbD]
  rcases Nat.lt_or_ge i 8 with hlow | hhigh
  · interval_cases i <;> simp
  · have herr : s.err.getLsbD (i - 4) = false := s.err.getLsbD_of_ge _ (by omega)
    simp [herr, show i ≠ 0 by omega, show i ≠ 1 by omega, show i - 1 ≠ 0 by omega]

theorem State.statusWord_reserved_low (s : State) : s.statusWord.extractLsb' 2 2 = 0#2 := by
  refine BitVec.eq_of_getLsbD_eq fun i hi => ?_
  rw [BitVec.getLsbD_extractLsb', s.statusWord_getLsbD]
  simp [show 2 + i ≠ 1 by omega, show ¬ 4 ≤ 2 + i by omega]

theorem State.statusWord_err (s : State) : s.statusWord.extractLsb' 4 4 = s.err := by
  refine BitVec.eq_of_getLsbD_eq fun i hi => ?_
  rw [BitVec.getLsbD_extractLsb', s.statusWord_getLsbD]
  simp [hi, show 4 + i ≠ 1 by omega]

theorem State.statusWord_reserved_high (s : State) : s.statusWord.extractLsb' 8 24 = 0#24 := by
  refine BitVec.eq_of_getLsbD_eq fun i hi => ?_
  rw [BitVec.getLsbD_extractLsb', s.statusWord_getLsbD, s.err.getLsbD_of_ge _ (by omega)]
  simp [show 8 + i ≠ 1 by omega]

/-- The write effect of STATUS (R28): bit 1 set clears DONE. -/
theorem State.writeReg_status (s : State) (v : Word) :
    s.writeReg v .status = { s with done := if v.getLsbD 1 then false else s.done } := by
  have hdone : (s.done && !v.getLsbD 1) = if v.getLsbD 1 then false else s.done := by
    cases v.getLsbD 1
    · exact Bool.and_true _
    · exact Bool.and_false _
  exact congrArg (fun d => { s with done := d }) hdone

/-- CFG reads WMAX in its low half and 0 above (R24). -/
theorem State.readReg_cfg_halves (s : State) :
    (s.readReg .cfg).extractLsb' 0 16 = BitVec.ofNat 16 s.wmax ∧ (s.readReg .cfg).extractLsb' 16 16 = 0#16 := by
  constructor <;> apply BitVec.eq_of_toNat_eq <;>
    simp only [State.readReg, BitVec.extractLsb'_toNat, BitVec.toNat_ofNat, Nat.shiftRight_eq_div_pow] <;> omega

theorem clampKlen_toNat (v : Word) : (clampKlen v).toNat = min v.toNat 16 := by
  rw [clampKlen, BitVec.toNat_ofNat]
  omega

theorem State.readReg_klen (s : State) : s.readReg .klen = BitVec.ofNat 32 s.klen.toNat :=
  (BitVec.ofNat_toNat ..).symm

/-- Settles O38: each offset is a register's, and each register reads as its rule says. -/
theorem registerReads : Obligations.RegisterReads := by
  unfold Obligations.RegisterReads
  intro s
  have hklen : s.memRead 0x020 .word = some (BitVec.ofNat 32 s.klen.toNat) := s.readReg_klen ▸ s.memRead_of_regAt .klen rfl
  exact ⟨s.memRead_of_regAt .id rfl, ⟨_, s.memRead_of_regAt .cfg rfl, s.readReg_cfg_halves⟩, s.memRead_of_regAt .cmd rfl,
    s.memRead_of_regAt .irqen rfl, s.memRead_of_regAt .len rfl, s.memRead_of_regAt .wcnt rfl, s.memRead_of_regAt .outlen rfl,
    hklen, s.memRead_of_regAt .rounds rfl, s.memRead_of_regAt .key0 rfl, s.memRead_of_regAt .key1 rfl,
    s.memRead_of_regAt .key2 rfl, s.memRead_of_regAt .key3 rfl⟩

/-- Settles O39: the fields are read off STATUS bit by bit, and the write's effect is `State.writeStatus`. -/
theorem statusFieldsAndWriteOneToClear : Obligations.StatusFieldsAndWriteOneToClear := by
  unfold Obligations.StatusFieldsAndWriteOneToClear
  intro s v
  exact ⟨⟨s.statusWord, s.memRead_of_regAt .status rfl, s.statusWord_getLsbD 0, s.statusWord_getLsbD 1, s.statusWord_reserved_low,
    s.statusWord_err, s.statusWord_reserved_high⟩, s.writeReg_status v ▸ s.memWrite_of_regAt v .status rfl⟩

/-- Settles O40: the four offsets are those of ID, CFG, OUTLEN and ROUNDS, whose write effect is nothing. -/
theorem readOnlyRegistersIgnoreWrites : Obligations.ReadOnlyRegistersIgnoreWrites := by
  unfold Obligations.ReadOnlyRegistersIgnoreWrites
  intro s v off hoff
  fin_cases hoff
  · exact s.memWrite_of_regAt v .id rfl
  · exact s.memWrite_of_regAt v .cfg rfl
  · exact s.memWrite_of_regAt v .outlen rfl
  · exact s.memWrite_of_regAt v .rounds rfl

/-- Settles O41: the five bits of KLEN hold every `min(v, 16)`. -/
theorem klenClamps : Obligations.KlenClamps := by
  unfold Obligations.KlenClamps
  intro s v
  refine ⟨_, s.memWrite_of_regAt v .klen rfl, rfl, clampKlen_toNat v, ?_⟩
  rw [State.memRead_of_regAt _ .klen rfl, State.readReg_klen, ← clampKlen_toNat]
  rfl

/-- Settles O42: each offset is a register's, and each register's write effect is its rule's. -/
theorem writableRegistersStore : Obligations.WritableRegistersStore := by
  unfold Obligations.WritableRegistersStore
  intro s v
  exact ⟨s.memWrite_of_regAt v .irqen rfl, s.memWrite_of_regAt v .len rfl, s.memWrite_of_regAt v .wcnt rfl,
    s.memWrite_of_regAt v .key0 rfl, s.memWrite_of_regAt v .key1 rfl, s.memWrite_of_regAt v .key2 rfl,
    s.memWrite_of_regAt v .key3 rfl⟩

/-! ### The state right after hardware reset -/

/-- Settles O52: `State.reset` is one closed state, so its clauses are evaluated. -/
theorem resetHasTheInvariant : Obligations.ResetHasTheInvariant := by
  unfold Obligations.ResetHasTheInvariant
  decide

/-- Settles O57: `State.reset` is one closed state, so its reads are evaluated. -/
theorem resetValues : Obligations.ResetValues := by
  unfold Obligations.ResetValues
  decide

/-! ### What a command does -/

/-- The shapes of the next state of a command other than SRST: an error (R208), or its shared steps, with what its checks (R202,
R204) leave true of the counts. -/
inductive CommandEffect (s : State) : State → Prop
  | error (e : ErrorCode) : CommandEffect s (s.raise e)
  | nothing : CommandEffect s (s.complete .ok)
  | packed (l : Bool) (hfit : ceil4 s.len.toNat + (if l then 1 else 0) ≤ s.wmax) : CommandEffect s ((s.packInput l).complete .ok)
  | keyPacked : CommandEffect s (s.packKey.complete .ok)
  | unpacked (l : Bool) (hfit : s.wcnt.toNat ≤ s.wmax) : CommandEffect s (s.finishUnpack l)
  | mixed {r : List Word → KeyWords → List Word} (hr : ∀ w k, (r w k).length = w.length) (hpos : s.wcnt ≠ 0#32)
      (hfit : s.wcnt.toNat ≤ s.wmax) : CommandEffect s ((s.mixWords r).complete .ok)
  | composed (l l' : Bool) {r : List Word → KeyWords → List Word} (hr : ∀ w k, (r w k).length = w.length) (hpos : s.len ≠ 0#32)
      (hfit : ceil4 s.len.toNat + (if l then 1 else 0) ≤ s.wmax) :
      CommandEffect s (((s.packInput l).packKey.mixWords r).finishUnpack l')

/-- Every command but SRST has one of these effects. -/
theorem exec_commandEffect {i : Instr} {s t : State} (hi : i ≠ .srst) (h : exec i s = .next t) : CommandEffect s t := by
  cases i
  case srst => exact absurd rfl hi
  case nop => cases h; exact .nothing
  case keypack => cases h; exact .keyPacked
  case pack =>
    simp only [exec, execPack] at h
    split at h <;> cases h
    · exact .error _
    · next hfit => exact .packed false (Nat.le_of_not_gt hfit)
  case packL =>
    simp only [exec, execPackL] at h
    split at h <;> cases h
    · exact .error _
    · next hfit => exact .packed true (Nat.le_of_not_gt hfit)
  case unpack =>
    simp only [exec, execUnpack] at h
    split at h <;> cases h
    · exact .error _
    · next hfit => exact .unpacked _ (Nat.le_of_not_gt hfit)
  case unpackL =>
    simp only [exec, execUnpackL] at h
    split at h
    · cases h; exact .error _
    split at h <;> cases h
    · exact .error _
    · next hfit => exact .unpacked _ (Nat.le_of_not_gt hfit)
  case encr =>
    simp only [exec, execEncr] at h
    split at h
    · cases h; exact .error _
    split at h <;> cases h
    · exact .error _
    · next hpos hfit => exact .mixed encRounds_length hpos (Nat.le_of_not_gt hfit)
  case decr =>
    simp only [exec, execDecr] at h
    split at h
    · cases h; exact .error _
    split at h <;> cases h
    · exact .error _
    · next hpos hfit => exact .mixed decRounds_length hpos (Nat.le_of_not_gt hfit)
  case encrypt =>
    simp only [exec, execEncrypt] at h
    split at h
    · cases h; exact .error _
    split at h <;> cases h
    · exact .error _
    · next hpos hfit => exact .composed true false encRounds_length hpos (Nat.le_of_not_gt hfit)
  case decrypt =>
    simp only [exec, execDecrypt] at h
    split at h
    · cases h; exact .error _
    split at h <;> cases h
    · exact .error _
    · next hpos hfit => exact .composed false true decRounds_length hpos (Nat.le_of_not_gt hfit)

/-! ### The inputs -/

/-- `t` has the inputs of `s`: LEN, KLEN, and every byte outside the 64 KiB slots of WBUF and OBUF (R63). -/
structure State.SameInputs (s t : State) : Prop where
  len : t.len = s.len
  klen : t.klen = s.klen
  bytes : ∀ x, x < Buf.wbuf.base ∨ Buf.ibuf.base ≤ x ∧ x < Buf.obuf.base → t.cellAt x = s.cellAt x

namespace State.SameInputs

variable {s t : State}

theorem refl (s : State) : s.SameInputs s := ⟨rfl, rfl, fun _ _ => rfl⟩

theorem complete (h : s.SameInputs t) (e : ErrorCode) : s.SameInputs (t.complete e) := ⟨h.len, h.klen, h.bytes⟩

theorem raise (h : s.SameInputs t) (e : ErrorCode) : s.SameInputs (t.raise e) := ⟨h.len, h.klen, h.bytes⟩

theorem packKey (h : s.SameInputs t) : s.SameInputs t.packKey := ⟨h.len, h.klen, h.bytes⟩

/-- Packing writes WBUF's slot only, when the words fit it. -/
theorem packInput (h : s.SameInputs t) {l : Bool} (hfit : ceil4 t.len.toNat + (if l then 1 else 0) ≤ Config.maxWmax) :
    s.SameInputs (t.packInput l) where
  len := by simpa using h.len
  klen := by simpa using h.klen
  bytes x hx := by
    rw [State.cellAt_packInput_of_outside, h.bytes x hx]
    simp only [Buf.base, Config.maxWmax] at *
    omega

/-- The round step writes WBUF's slot only, when the words fit it. -/
theorem mixWords (h : s.SameInputs t) {r : List Word → KeyWords → List Word} (hr : ∀ w k, (r w k).length = w.length)
    (hfit : t.wcnt.toNat ≤ Config.maxWmax) : s.SameInputs (t.mixWords r) where
  len := by simpa using h.len
  klen := by simpa using h.klen
  bytes x hx := by
    rw [State.cellAt_mixWords_of_outside _ _ hr, h.bytes x hx]
    simp only [Buf.base, Config.maxWmax] at *
    omega

/-- Unpacking writes at OBUF's base and above only. -/
theorem finishUnpack (h : s.SameInputs t) (l : Bool) : s.SameInputs (t.finishUnpack l) := by
  rcases State.finishUnpack_cases t l with ⟨-, -, heq⟩ | ⟨m, -, -, heq⟩ <;> rw [heq]
  · exact h.raise _
  · have hstore : s.SameInputs (t.storeOut (unpackOut t.wordArray m)) :=
      { len := by simpa using h.len
        klen := by simpa using h.klen
        bytes := fun x hx => by
          rw [State.cellAt_storeOut, if_neg, h.bytes x hx]
          simp only [Buf.base] at *
          omega }
    exact ⟨hstore.len, hstore.klen, hstore.bytes⟩

end State.SameInputs

theorem State.wmax_le_maxWmax {s : State} (h : s.capacityInv = true) : s.wmax ≤ Config.maxWmax :=
  ((wmaxOk_iff _).mp h).2

theorem CommandEffect.sameInputs {s t : State} (hcap : s.capacityInv = true) (h : CommandEffect s t) : s.SameInputs t := by
  have hmax := State.wmax_le_maxWmax hcap
  have hrefl := State.SameInputs.refl s
  cases h with
  | error e => exact hrefl.raise e
  | nothing => exact hrefl.complete _
  | packed l hfit => exact (hrefl.packInput (hfit.trans hmax)).complete _
  | keyPacked => exact hrefl.packKey.complete _
  | unpacked l hfit => exact hrefl.finishUnpack l
  | mixed hr hpos hfit => exact (hrefl.mixWords hr (hfit.trans hmax)).complete _
  | composed l l' hr hpos hfit =>
    have hwcnt : (s.packInput l).packKey.wcnt.toNat ≤ Config.maxWmax := by
      rw [State.packKey_wcnt, State.packInput_wcnt_toNat]
      exact hfit.trans hmax
    exact ((hrefl.packInput (hfit.trans hmax)).packKey.mixWords hr hwcnt).finishUnpack l'

/-- KBUF lies below WBUF's slot. -/
theorem State.SameInputs.byteAt_kbuf {s t : State} (h : s.SameInputs t) {j : Nat} (hj : j < 16) :
    t.byteAt .kbuf j = s.byteAt .kbuf j :=
  h.bytes _ (Or.inl (by simp only [Buf.base]; omega))

/-- IBUF, with a legal capacity, lies in its own slot. -/
theorem State.SameInputs.byteAt_ibuf {s t : State} (h : s.SameInputs t) (hcap : s.capacityInv = true) {j : Nat}
    (hj : j < 4 * s.wmax) : t.byteAt .ibuf j = s.byteAt .ibuf j := by
  have hmax := State.wmax_le_maxWmax hcap
  exact h.bytes _ (Or.inr (by simp only [Buf.base, Config.maxWmax] at *; omega))

/-- Settles O34: SRST writes no buffer, and every other command stores into the slots of WBUF and OBUF only. -/
theorem commandsNeverWriteTheirInputs : Obligations.CommandsNeverWriteTheirInputs := by
  unfold Obligations.CommandsNeverWriteTheirInputs
  intro i s t hcap h
  by_cases hi : i = .srst
  · subst hi
    cases h
    exact ⟨fun _ _ => rfl, fun _ _ => rfl, fun hne => absurd rfl hne⟩
  · have hsame := (exec_commandEffect hi h).sameInputs hcap
    exact ⟨fun _ => hsame.byteAt_kbuf, fun _ => hsame.byteAt_ibuf hcap, fun _ => ⟨hsame.len, hsame.klen⟩⟩

/-! ### The host's move -/

/-- A host's move that answers a next state changes the queue and the replies only, or performs a write that completes. -/
theorem State.hostMove_next_cases {s t : State} (ht : s.hostMove = .next t) :
    (∃ host replies, t = { s with host := host, replies := replies }) ∨
    (∃ off size v u rest, s.memWrite off size v = some u ∧ t = { u with host := rest }) := by
  rcases s.hostMove_cases with ⟨-, heq⟩ | ⟨off, size, rest, v, -, -, heq⟩ | ⟨off, size, rest, -, -, heq⟩ |
    ⟨off, size, v, rest, u, -, hu, heq⟩ | ⟨off, size, v, rest, -, -, heq⟩ | ⟨rest, -, heq | ⟨-, heq⟩⟩ <;>
    rw [heq] at ht <;> cases ht
  · exact Or.inl ⟨_, _, rfl⟩
  · exact Or.inl ⟨_, _, rfl⟩
  · exact Or.inr ⟨_, _, _, u, rest, hu, rfl⟩
  · exact Or.inl ⟨_, _, rfl⟩
  · exact Or.inl ⟨_, _, rfl⟩

/-! ### DONE -/

/-- The port only ever clears DONE: by an issue (R211) or a STATUS write (R28). -/
theorem State.done_of_memWrite {s t : State} {off : Nat} {size : AccessSize} {v : Word} (ht : s.memWrite off size v = some t)
    (hd : t.done = true) : s.done = true := by
  rcases State.memWrite_cases ht with ⟨r, -, -, rfl⟩ | ⟨b, -, -, -, -, rfl⟩
  · cases r
    case cmd => exact absurd hd Bool.false_ne_true
    case status =>
      obtain ⟨hs, -⟩ := (Bool.and_eq_true_iff).mp hd
      exact hs
    all_goals exact hd
  · simpa using hd

theorem State.done_of_hostMove {s t : State} (ht : s.hostMove = .next t) (hd : t.done = true) : s.done = true := by
  rcases State.hostMove_next_cases ht with ⟨host, replies, rfl⟩ | ⟨off, size, v, u, rest, hu, rfl⟩
  · exact hd
  · exact State.done_of_memWrite hu hd

theorem State.done_of_platformMove {s t : State} (ht : s.platformMove = .next t) (hd : t.done = true) : s.done = true := by
  rcases s.platformMove_cases with ⟨-, heq⟩ | ⟨rest, -, heq⟩ | ⟨rest, -, heq⟩ <;> rw [heq] at ht <;> cases ht
  · exact hd
  · exact absurd hd Bool.false_ne_true
  · exact absurd hd Bool.false_ne_true

/-- SRST does not set DONE (R191). -/
theorem decode_ne_srst_of_engineMove_done {s t : State} (ht : engineMove s = .next t) (hd : t.done = true) :
    decode s.cmdLatch ≠ .ok .srst := by
  intro hsrst
  rw [engineMove, State.fetch, hsrst] at ht
  cases ht
  exact Bool.false_ne_true hd

/-- Settles O49: the host and the platform only clear DONE, and the engine's move is a completion. -/
theorem doneRisesOnlyByCompletion : Obligations.DoneRisesOnlyByCompletion := by
  unfold Obligations.DoneRisesOnlyByCompletion
  intro s t ht hs hd
  rcases step_cases s with ⟨hm, heq⟩ | ⟨-, heq⟩ | ⟨-, heq⟩ | ⟨-, heq⟩ <;> rw [heq] at ht
  · obtain ⟨hbusy, -⟩ := (Bool.and_eq_true_iff).mp (State.mover_canMove hm)
    obtain ⟨u, hu, -, -, -, -, -, -, -, hidle⟩ := engineMove_frame s.nextTurn
    obtain rfl : t = u := by simpa [ht] using hu
    exact ⟨hbusy, hidle, hm, decode_ne_srst_of_engineMove_done (s := s.nextTurn) ht hd⟩
  · exact absurd (hs.symm.trans (State.done_of_hostMove (s := s.nextTurn) ht hd)) Bool.false_ne_true
  · exact absurd (hs.symm.trans (State.done_of_platformMove (s := s.nextTurn) ht hd)) Bool.false_ne_true
  · cases ht
    exact absurd (hs.symm.trans hd) Bool.false_ne_true

/-! ### OBUF -/

/-- Every other buffer, with a legal capacity, ends below OBUF (R63). -/
theorem Buf.end_le_obuf_base {wmax : Nat} (hmax : wmax ≤ Config.maxWmax) {b : Buf} (hb : b ≠ .obuf) :
    b.base + b.extent wmax ≤ Buf.obuf.base := by
  unfold Config.maxWmax at hmax
  cases b
  case obuf => exact absurd rfl hb
  all_goals simp only [Buf.base, Buf.extent]; omega

/-- A write at the port never reaches OBUF (R68). -/
theorem State.byteAt_obuf_memWrite {s t : State} (hcap : s.capacityInv = true) {off : Nat} {size : AccessSize} {v : Word}
    (ht : s.memWrite off size v = some t) (j : Nat) : t.byteAt .obuf j = s.byteAt .obuf j := by
  rcases State.memWrite_cases ht with ⟨r, -, -, rfl⟩ | ⟨b, -, -, hb, hadm, rfl⟩
  · obtain ⟨-, hmem, hdraw, -⟩ := s.writeReg_frame v r
    exact State.byteAt_congr hmem hdraw _ _
  · have hbelow := Buf.end_le_obuf_base (State.wmax_le_maxWmax hcap) hb
    simp only [Buf.admits, Bool.and_eq_true, decide_eq_true_eq] at hadm
    obtain ⟨-, hend⟩ := hadm
    rw [State.byteAt, State.cellAt_storeCells, if_neg, State.byteAt]
    rw [valueBytes_length]
    omega

theorem State.byteAt_obuf_hostMove {s t : State} (hcap : s.capacityInv = true) (ht : s.hostMove = .next t) (j : Nat) :
    t.byteAt .obuf j = s.byteAt .obuf j := by
  rcases State.hostMove_next_cases ht with ⟨host, replies, rfl⟩ | ⟨off, size, v, u, rest, hu, rfl⟩
  · rfl
  · exact State.byteAt_obuf_memWrite hcap hu j

/-- A platform's move that takes no new draw is no hardware reset, so it changes nothing. -/
theorem State.eq_of_platformMove_draw {s t : State} (ht : s.platformMove = .next t) (hdraw : t.draw = s.draw) : t = s := by
  rcases s.platformMove_cases with ⟨-, heq⟩ | ⟨rest, -, heq⟩ | ⟨rest, -, heq⟩ <;> rw [heq] at ht <;> cases ht
  · rfl
  · exact absurd hdraw (Nat.succ_ne_self _)
  · exact absurd hdraw (Nat.succ_ne_self _)

/-- Settles O54: the port's writes stay below OBUF, and the platform's move is a hardware reset or nothing. -/
theorem onlyTheEngineWritesObuf : Obligations.OnlyTheEngineWritesObuf := by
  unfold Obligations.OnlyTheEngineWritesObuf
  intro s t j hcap ht hne hdraw
  rcases step_cases s with ⟨hm, -⟩ | ⟨-, heq⟩ | ⟨-, heq⟩ | ⟨-, heq⟩
  · exact absurd hm hne
  · exact State.byteAt_obuf_hostMove (s := s.nextTurn) hcap (heq.symm.trans ht) j
  · obtain rfl := State.eq_of_platformMove_draw (s := s.nextTurn) (heq.symm.trans ht) hdraw
    rfl
  · cases heq.symm.trans ht
    rfl

end Sys2Proof.Machine

/-! SUPPORT. The host port (20_memory.md): which accesses complete, what a write to a buffer stores and a read gives back, how the
host's access is performed or held, and that a host of legal accesses never stops the machine. -/

namespace Sys2Proof.Machine

/-! ### The address map (R63) -/

/-- The registers lie below the first buffer. -/
theorem regAt_eq_none_of_le {off : Nat} (h : 0x40 ≤ off) : regAt off = none := by
  unfold regAt
  split
  on_goal -1 => rfl
  all_goals omega

/-- R64: the offsets of the registers are the multiples of 4 up to ROUNDS and from KEY0 to KEY3. -/
theorem regAt_isSome_iff {off : Nat} (h : off < 0x40) :
    (regAt off).isSome = true ↔ off % 4 = 0 ∧ (off ≤ 0x24 ∨ 0x30 ≤ off) := by
  revert off
  decide

/-- With a legal capacity each buffer stays inside its own 64 KiB slot (R5). -/
theorem Buf.div_eq_of_mem {wmax off : Nat} (hmax : wmax ≤ Config.maxWmax) {b : Buf} (hlo : b.base ≤ off)
    (hhi : off < b.base + b.extent wmax) : off / 0x10000 = b.base / 0x10000 := by
  unfold Config.maxWmax at hmax
  cases b <;> simp only [Buf.base, Buf.extent] at * <;> omega

theorem Buf.eq_of_base_div_eq {b c : Buf} (h : b.base / 0x10000 = c.base / 0x10000) : b = c := by
  revert h
  cases b <;> cases c <;> decide

/-- The buffers are disjoint, so the buffer found at an offset is the one whose range the offset lies in. -/
theorem bufAt_eq_some_iff {wmax off : Nat} (hmax : wmax ≤ Config.maxWmax) {b : Buf} :
    bufAt wmax off = some b ↔ b.base ≤ off ∧ off < b.base + b.extent wmax := by
  refine ⟨bufAt_some, fun ⟨hlo, hhi⟩ => ?_⟩
  obtain ⟨c, hc⟩ := Option.isSome_iff_exists.mp (bufAt_isSome_of_mem b hlo hhi)
  obtain ⟨hclo, hchi⟩ := bufAt_some hc
  have hslot : c.base / 0x10000 = b.base / 0x10000 :=
    (Buf.div_eq_of_mem hmax hclo hchi).symm.trans (Buf.div_eq_of_mem hmax hlo hhi)
  rw [hc, Buf.eq_of_base_div_eq hslot]

theorem Buf.admits_iff {wmax off : Nat} {b : Buf} {size : AccessSize} :
    b.admits wmax off size = true ↔ off % size.bytes = 0 ∧ off + size.bytes ≤ b.base + b.extent wmax := by
  simp [Buf.admits]

theorem AccessSize.bytes_pos (size : AccessSize) : 0 < size.bytes := by
  cases size <;> decide

/-! ### Legality is completion (R63 to R65, R68, R69) -/

/-- Below the buffers an access is legal when it is of the whole of a register. -/
theorem readLegal_iff_of_lt {wmax off : Nat} {size : AccessSize} (h : off < 0x40) :
    readLegal wmax off size = true ↔ (regAt off).isSome = true ∧ size = .word := by
  rw [regAt_isSome_iff h]
  simp only [readLegal, if_pos h, Bool.and_eq_true, Bool.or_eq_true, beq_iff_eq, decide_eq_true_eq]
  exact and_assoc.trans and_comm

/-- From the first buffer on an access is legal when the buffer at its offset admits it. -/
theorem readLegal_iff_of_le {wmax off : Nat} {size : AccessSize} (hmax : wmax ≤ Config.maxWmax) (h : 0x40 ≤ off) :
    readLegal wmax off size = true ↔ ∃ b, bufAt wmax off = some b ∧ b.admits wmax off size = true := by
  have hpos := size.bytes_pos
  simp only [readLegal, if_neg (Nat.not_lt.mpr h), Bool.and_eq_true, List.any_eq_true, decide_eq_true_eq, bufAt_eq_some_iff hmax,
    Buf.admits_iff]
  constructor
  · rintro ⟨halign, b, -, hlo, hend⟩
    exact ⟨b, ⟨hlo, by omega⟩, halign, hend⟩
  · rintro ⟨b, ⟨hlo, -⟩, halign, hend⟩
    exact ⟨halign, b, by cases b <;> simp, hlo, hend⟩

/-- A legal access is of a register or of a buffer, as the port looks them up. -/
theorem readLegal_iff {wmax off : Nat} {size : AccessSize} (hmax : wmax ≤ Config.maxWmax) :
    readLegal wmax off size = true ↔
      (∃ r, regAt off = some r ∧ size = .word) ∨
      (∃ b, regAt off = none ∧ bufAt wmax off = some b ∧ b.admits wmax off size = true) := by
  rcases Nat.lt_or_ge off 0x40 with hlt | hge
  · have hnone (b : Buf) : bufAt wmax off ≠ some b := fun hb => by
      obtain ⟨hlo, -⟩ := bufAt_some hb
      cases b <;> simp only [Buf.base] at hlo <;> omega
    simp [readLegal_iff_of_lt hlt, Option.isSome_iff_exists, hnone]
  · simp [readLegal_iff_of_le hmax hge, regAt_eq_none_of_le hge]

/-- A legal write is a legal read that does not reach OBUF (R68). -/
theorem writeLegal_iff {wmax off : Nat} {size : AccessSize} (hmax : wmax ≤ Config.maxWmax) :
    writeLegal wmax off size = true ↔
      (∃ r, regAt off = some r ∧ size = .word) ∨
      (∃ b, regAt off = none ∧ bufAt wmax off = some b ∧ b ≠ .obuf ∧ b.admits wmax off size = true) := by
  simp only [writeLegal, Bool.and_eq_true, decide_eq_true_eq, readLegal_iff hmax]
  constructor
  · rintro ⟨hreg | ⟨b, hr, hb, hadm⟩, hlt⟩
    · exact Or.inl hreg
    · refine Or.inr ⟨b, hr, hb, ?_, hadm⟩
      rintro rfl
      obtain ⟨hlo, -⟩ := bufAt_some hb
      exact absurd hlo (Nat.not_le.mpr hlt)
  · rintro (⟨r, hr, hsize⟩ | ⟨b, hr, hb, hne, hadm⟩)
    · refine ⟨Or.inl ⟨r, hr, hsize⟩, ?_⟩
      by_contra hge
      rw [regAt_eq_none_of_le (by omega)] at hr
      cases hr
    · obtain ⟨-, hhi⟩ := bufAt_some hb
      exact ⟨Or.inr ⟨b, hr, hb, hadm⟩, hhi.trans_le (Buf.end_le_obuf_base hmax hne)⟩

theorem State.memRead_of_bufAt {s : State} {off : Nat} {size : AccessSize} {b : Buf} (hr : regAt off = none)
    (hb : bufAt s.wmax off = some b) (hadm : b.admits s.wmax off size = true) :
    s.memRead off size = some (s.readBytes off size) := by
  simp [State.memRead, hr, hb, hadm]

theorem State.memWrite_of_bufAt {s : State} {off : Nat} {size : AccessSize} {b : Buf} (v : Word) (hr : regAt off = none)
    (hb : bufAt s.wmax off = some b) (hne : b ≠ .obuf) (hadm : b.admits s.wmax off size = true) :
    s.memWrite off size v = some (s.storeCells off (valueBytes v size)) := by
  cases b
  case obuf => exact absurd rfl hne
  all_goals simp [State.memWrite, hr, hb, hadm]

/-- A host read that completes is of a whole register or of bytes of a buffer. -/
theorem State.memRead_cases {s : State} {off : Nat} {size : AccessSize} {x : Word} (h : s.memRead off size = some x) :
    (∃ r, regAt off = some r ∧ size = .word ∧ x = s.readReg r) ∨
    (∃ b, regAt off = none ∧ bufAt s.wmax off = some b ∧ b.admits s.wmax off size = true ∧ x = s.readBytes off size) := by
  unfold State.memRead at h
  split at h
  · next r hr =>
    split at h <;> cases h
    next hsize => exact Or.inl ⟨r, hr, hsize, rfl⟩
  · next hr =>
    split at h
    · next b hb =>
      split at h <;> cases h
      next hadm => exact Or.inr ⟨b, hr, hb, hadm, rfl⟩
    · cases h

theorem State.memRead_isSome {s : State} (hcap : s.capacityInv = true) (off : Nat) (size : AccessSize) :
    (s.memRead off size).isSome = readLegal s.wmax off size := by
  rw [Bool.eq_iff_iff, readLegal_iff (State.wmax_le_maxWmax hcap), Option.isSome_iff_exists]
  constructor
  · rintro ⟨x, hx⟩
    rcases State.memRead_cases hx with ⟨r, hr, hsize, -⟩ | ⟨b, hr, hb, hadm, -⟩
    · exact Or.inl ⟨r, hr, hsize⟩
    · exact Or.inr ⟨b, hr, hb, hadm⟩
  · rintro (⟨r, hr, rfl⟩ | ⟨b, hr, hb, hadm⟩)
    · exact ⟨_, s.memRead_of_regAt r hr⟩
    · exact ⟨_, State.memRead_of_bufAt hr hb hadm⟩

theorem State.memWrite_isSome {s : State} (hcap : s.capacityInv = true) (off : Nat) (size : AccessSize) (v : Word) :
    (s.memWrite off size v).isSome = writeLegal s.wmax off size := by
  rw [Bool.eq_iff_iff, writeLegal_iff (State.wmax_le_maxWmax hcap), Option.isSome_iff_exists]
  constructor
  · rintro ⟨t, ht⟩
    rcases State.memWrite_cases ht with ⟨r, hr, hsize, -⟩ | ⟨b, hr, hb, hne, hadm, -⟩
    · exact Or.inl ⟨r, hr, hsize⟩
    · exact Or.inr ⟨b, hr, hb, hne, hadm⟩
  · rintro (⟨r, hr, rfl⟩ | ⟨b, hr, hb, hne, hadm⟩)
    · exact ⟨_, s.memWrite_of_regAt v r hr⟩
    · exact ⟨_, State.memWrite_of_bufAt v hr hb hne hadm⟩

theorem State.memRead_eq_none {s : State} (hcap : s.capacityInv = true) {off : Nat} {size : AccessSize}
    (h : readLegal s.wmax off size = false) : s.memRead off size = none := by
  rwa [← State.memRead_isSome hcap, Option.isSome_eq_false_iff, Option.isNone_iff_eq_none] at h

theorem State.memWrite_eq_none {s : State} (hcap : s.capacityInv = true) {off : Nat} {size : AccessSize} (v : Word)
    (h : writeLegal s.wmax off size = false) : s.memWrite off size v = none := by
  rwa [← State.memWrite_isSome hcap off size v, Option.isSome_eq_false_iff, Option.isNone_iff_eq_none] at h

/-- Settles O35: the port looks an offset up among the registers, then among the disjoint buffers, as the rules of legality do. -/
theorem accessesCompleteExactlyWhenLegal : Obligations.AccessesCompleteExactlyWhenLegal := by
  unfold Obligations.AccessesCompleteExactlyWhenLegal
  intro s off size v hcap
  rw [← State.memRead_isSome hcap, ← State.memWrite_isSome hcap off size v]
  exact ⟨Option.isSome_iff_exists.symm, Option.isSome_iff_exists.symm⟩

/-! ### Bytes stored and read back (R62, R66, R67, R73) -/

/-- A store of bytes changes the memory list only. -/
theorem State.storeCells_eq (s : State) (a : Nat) (vs : List Byte) :
    s.storeCells a vs = { s with mem := (s.storeCells a vs).mem } := by
  ext1 <;> simp

/-- The bytes of the value a buffer read gives: those of the buffer, zeros above (R66). -/
theorem State.byteOf_readBytes (s : State) (off : Nat) (size : AccessSize) {j : Nat} (hj : j < 4) :
    byteOf (s.readBytes off size) j = if j < size.bytes then s.cellAt (off + j) else 0#8 := by
  have hbytes := byteOf_leWord_fun (fun i => if i < size.bytes then s.cellAt (off + i) else 0#8) hj
  cases size <;> simpa [AccessSize.bytes, State.readBytes] using hbytes

/-- What a write of a value does to every read of a byte (R67). -/
theorem State.cellAt_storeValue (s : State) (off : Nat) (v : Word) (size : AccessSize) (a : Nat) :
    (s.storeCells off (valueBytes v size)).cellAt a =
      if off ≤ a ∧ a < off + size.bytes then byteOf v (a - off) else s.cellAt a := by
  rw [State.cellAt_storeCells, valueBytes_length]
  split
  · exact valueBytes_getD v size (by omega)
  · rfl

/-- Settles O36: the write stores the value's bytes at its own offsets, and the read of the same unit is admitted there again. -/
theorem bufferWriteStoresItsBytes : Obligations.BufferWriteStoresItsBytes := by
  unfold Obligations.BufferWriteStoresItsBytes
  intro s off size v hcap hoff hlegal
  have hnone := regAt_eq_none_of_le hoff
  rcases (writeLegal_iff (State.wmax_le_maxWmax hcap)).mp hlegal with ⟨r, hr, -⟩ | ⟨b, -, hb, hne, hadm⟩
  · exact absurd (hnone.symm.trans hr) (by simp)
  have hcell (j : Nat) (hj : j < size.bytes) : (s.storeCells off (valueBytes v size)).cellAt (off + j) = byteOf v j := by
    rw [State.cellAt_storeValue, if_pos (by omega), Nat.add_sub_cancel_left]
  refine ⟨_, State.memWrite_of_bufAt v hnone hb hne hadm, s.storeCells_eq _ _, hcell, fun a ha => ?_, _,
    State.memRead_of_bufAt hnone (by simpa using hb) (by simpa using hadm), fun j hj => ?_⟩
  · rw [State.cellAt_storeValue, if_neg ha]
  · rw [State.byteOf_readBytes _ _ _ hj]
    split
    · next hlt => exact hcell j hlt
    · rfl

/-- An aligned access inside WBUF is admitted there (R65). -/
theorem admitted_of_wbuf {wmax i : Nat} {size : AccessSize} (hmax : wmax ≤ Config.maxWmax) (halign : (0x10000 + i) % size.bytes = 0)
    (hend : i + size.bytes ≤ 4 * wmax) : regAt (0x10000 + i) = none ∧ bufAt wmax (0x10000 + i) = some .wbuf ∧
      Buf.wbuf.admits wmax (0x10000 + i) size = true := by
  have hpos := size.bytes_pos
  have hbase : Buf.wbuf.base = 0x10000 := rfl
  have hextent : Buf.wbuf.extent wmax = 4 * wmax := rfl
  exact ⟨regAt_eq_none_of_le (by omega), (bufAt_eq_some_iff hmax).mpr (by omega), Buf.admits_iff.mpr ⟨halign, by omega⟩⟩

/-- A byte as a word: zeros above it. -/
theorem leWord_zeros (b : Byte) : leWord b 0#8 0#8 0#8 = b.setWidth 32 := by
  simp [leWord]

/-- The words of WBUF after a 4-byte write through the byte view. -/
theorem State.wordAt_storeValue (s : State) (k k' : Nat) (v : Word) :
    (s.storeCells (Buf.wbuf.base + 4 * k) (valueBytes v .word)).wordAt k' = if k' = k then v else s.wordAt k' := by
  apply word_eq_of_bytes
  intro j hj
  have hbytes : AccessSize.word.bytes = 4 := rfl
  rw [byteOf_wordAt _ _ hj, State.byteAt, State.cellAt_storeValue]
  by_cases hk : k' = k
  · rw [if_pos (by omega), if_pos hk, show Buf.wbuf.base + (4 * k' + j) - (Buf.wbuf.base + 4 * k) = j by omega]
  · rw [if_neg (by omega), if_neg hk, byteOf_wordAt _ _ hj, State.byteAt]

/-- Settles O37: the accesses lie inside WBUF, and a word is the four bytes of its place in the byte view. -/
theorem wbufByteView : Obligations.WbufByteView := by
  unfold Obligations.WbufByteView
  intro s k j v hcap hk hj
  have hmax := State.wmax_le_maxWmax hcap
  have hword : AccessSize.word.bytes = 4 := rfl
  have hbyte : AccessSize.byte.bytes = 1 := rfl
  obtain ⟨hreg, hbuf, hadm⟩ := admitted_of_wbuf (i := 4 * k) (size := .word) hmax (by rw [hword]; omega) (by omega)
  obtain ⟨hreg', hbuf', hadm'⟩ := admitted_of_wbuf (i := 4 * k + j) (size := .byte) hmax (Nat.mod_one _) (by omega)
  refine ⟨State.memRead_of_bufAt hreg hbuf hadm, ?_, _, State.memWrite_of_bufAt v hreg hbuf (by decide) hadm,
    (s.wordAt_storeValue k k v).trans (if_pos rfl), fun k' hne => (s.wordAt_storeValue k k' v).trans (if_neg hne)⟩
  rw [Nat.add_assoc, State.memRead_of_bufAt hreg' hbuf' hadm', State.readBytes, leWord_zeros, byteOf_wordAt _ _ hj]
  rfl

/-! ### The host's access is performed (R66, R67), or is a bus error (R69) -/

theorem step_of_mover_host {s : State} (h : s.mover = some .host) : step s = s.nextTurn.hostMove := by
  simp [step, h]

section
variable {s : State} {off : BitVec 18} {size : AccessSize} {rest : List HostOp}

theorem State.hostMove_of_memRead {r : Word} (h : s.host = .read off size :: rest) (hr : s.memRead off.toNat size = some r) :
    s.hostMove = .next { s with host := rest, replies := r :: s.replies } := by
  simp [State.hostMove, h, hr]

theorem State.hostMove_of_memRead_none (h : s.host = .read off size :: rest) (hr : s.memRead off.toNat size = none) :
    s.hostMove = .fault (.busError off size .read) := by
  simp [State.hostMove, h, hr]

theorem State.hostMove_of_memWrite {v : Word} {t : State} (h : s.host = .write off size v :: rest)
    (ht : s.memWrite off.toNat size v = some t) : s.hostMove = .next { t with host := rest } := by
  simp [State.hostMove, h, ht]

theorem State.hostMove_of_memWrite_none {v : Word} (h : s.host = .write off size v :: rest)
    (ht : s.memWrite off.toNat size v = none) : s.hostMove = .fault (.busError off size .write) := by
  simp [State.hostMove, h, ht]

end

/-! The port does not look at the schedule. -/

theorem State.storeCells_nextTurn (s : State) (a : Nat) (vs : List Byte) :
    s.nextTurn.storeCells a vs = (s.storeCells a vs).nextTurn := by
  induction vs generalizing s a with
  | nil => rfl
  | cons v vs ih => exact ih (s.setCell a v) (a + 1)

theorem State.writeReg_nextTurn (s : State) (v : Word) (r : Reg) : s.nextTurn.writeReg v r = (s.writeReg v r).nextTurn := by
  cases r <;> rfl

theorem State.memWrite_nextTurn {s t : State} {off : Nat} {size : AccessSize} {v : Word} (h : s.memWrite off size v = some t) :
    s.nextTurn.memWrite off size v = some t.nextTurn := by
  rcases State.memWrite_cases h with ⟨r, hr, rfl, rfl⟩ | ⟨b, hr, hb, hne, hadm, rfl⟩
  · rw [State.memWrite_of_regAt _ _ r hr, State.writeReg_nextTurn]
  · rw [State.memWrite_of_bufAt (s := s.nextTurn) v hr hb hne hadm, State.storeCells_nextTurn]

/-- Settles O44: the host's move is the access at the head of the queue, on the state with its turn used up. -/
theorem legalHostAccessIsPerformed : Obligations.LegalHostAccessIsPerformed := by
  unfold Obligations.LegalHostAccessIsPerformed
  intro s off size rest hm
  rw [step_of_mover_host hm]
  refine ⟨fun r hhost hr => State.hostMove_of_memRead (s := s.nextTurn) hhost hr, fun v t hhost ht => ?_⟩
  obtain ⟨-, -, -, -, -, -, hturns, -⟩ := State.memWrite_frame ht
  rw [State.hostMove_of_memWrite (s := s.nextTurn) hhost (State.memWrite_nextTurn ht), ← hturns]
  rfl

/-- Settles O45: an access that is not legal does not complete, so the host's move is the fault. -/
theorem illegalAccessIsABusError : Obligations.IllegalAccessIsABusError := by
  unfold Obligations.IllegalAccessIsABusError
  intro s off size v rest hcap hm
  rw [step_of_mover_host hm]
  constructor <;> intro hhost hillegal
  · exact State.hostMove_of_memRead_none (s := s.nextTurn) hhost (State.memRead_eq_none hcap hillegal)
  · exact State.hostMove_of_memWrite_none (s := s.nextTurn) hhost
      (State.memWrite_eq_none (s := s.nextTurn) hcap v hillegal)

/-! ### Held accesses (R70) -/

/-- The platform's move answers a next state and leaves the host's queue and replies alone. -/
theorem State.platformMove_frame (s : State) :
    ∃ t, s.platformMove = .next t ∧ t.wmax = s.wmax ∧ t.host = s.host ∧ t.replies = s.replies := by
  rcases s.platformMove_cases with ⟨-, heq⟩ | ⟨rest, -, heq⟩ | ⟨rest, -, heq⟩ <;> exact ⟨_, heq, rfl, rfl, rfl⟩

/-- A step that is not the host's answers a next state and leaves the host's queue and replies alone. -/
theorem step_frame_of_mover_ne_host {s : State} (h : s.mover ≠ some .host) :
    ∃ t, step s = .next t ∧ t.wmax = s.wmax ∧ t.host = s.host ∧ t.replies = s.replies := by
  rcases step_cases s with ⟨-, heq⟩ | ⟨hm, -⟩ | ⟨-, heq⟩ | ⟨-, heq⟩
  · obtain ⟨t, ht, hwmax, -, -, -, hhost, hreplies, -⟩ := engineMove_frame s.nextTurn
    exact ⟨t, heq.trans ht, hwmax, hhost, hreplies⟩
  · exact absurd hm h
  · obtain ⟨t, ht, hframe⟩ := s.nextTurn.platformMove_frame
    exact ⟨t, heq.trans ht, hframe⟩
  · exact ⟨_, heq, rfl, rfl, rfl⟩

theorem HostOp.eq_of_isStatusRead {op : HostOp} (h : op.isStatusRead = true) : op = .read 0x00C#18 .word ∨ op = .wait := by
  unfold HostOp.isStatusRead at h
  split at h
  · next off => exact Or.inl (congrArg (HostOp.read · .word) (BitVec.eq_of_toNat_eq (by simpa using h)))
  · cases h
  · cases h
  · exact Or.inr rfl

/-- Settles O46: the host cannot move, and no other agent's move touches its queue or its replies. -/
theorem accessesAreHeldWhileBusy : Obligations.AccessesAreHeldWhileBusy := by
  unfold Obligations.AccessesAreHeldWhileBusy
  intro s op rest hbusy hhost hstatus hwait
  have hm : s.mover ≠ some .host := by
    intro hm
    obtain ⟨-, hidle | hread⟩ := (State.hostCanMove_iff_of_cons hhost).mp (State.mover_canMove hm)
    · exact Bool.false_ne_true (hidle.symm.trans hbusy)
    · exact (HostOp.eq_of_isStatusRead hread).elim hstatus hwait
  obtain ⟨t, ht, -, hframe⟩ := step_frame_of_mover_ne_host hm
  exact ⟨t, ht, hframe⟩

/-! ### A host of legal accesses (R69, R200) -/

/-- With legal accesses only, the host's move answers a next state whose queue is the rest of the old one. -/
theorem State.hostMove_of_hostLegal {s : State} (hcap : s.capacityInv = true) (hlegal : s.hostLegal = true) :
    ∃ t, s.hostMove = .next t ∧ t.wmax = s.wmax ∧ t.host <:+ s.host := by
  have hhead {op : HostOp} {rest : List HostOp} (h : s.host = op :: rest) : op.legal s.wmax = true :=
    List.all_eq_true.mp hlegal op (h ▸ List.mem_cons_self)
  rcases s.hostMove_cases with ⟨-, heq⟩ | ⟨off, size, rest, v, hhost, -, heq⟩ | ⟨off, size, rest, hhost, hnone, -⟩ |
    ⟨off, size, v, rest, t, hhost, ht, heq⟩ | ⟨off, size, v, rest, hhost, hnone, -⟩ | ⟨rest, hhost, heq | ⟨-, heq⟩⟩
  · exact ⟨s, heq, rfl, List.suffix_rfl⟩
  · exact ⟨_, heq, rfl, hhost ▸ List.suffix_cons ..⟩
  · have hsome := (State.memRead_isSome hcap ..).trans (hhead hhost)
    rw [hnone] at hsome
    cases hsome
  · obtain ⟨hwmax, -⟩ := State.memWrite_frame ht
    exact ⟨_, heq, hwmax, hhost ▸ List.suffix_cons ..⟩
  · have hsome := (State.memWrite_isSome hcap _ _ v).trans (hhead hhost)
    rw [hnone] at hsome
    cases hsome
  · exact ⟨s, heq, rfl, List.suffix_rfl⟩
  · exact ⟨_, heq, rfl, hhost ▸ List.suffix_cons ..⟩

/-- With legal accesses only, every step answers a next state whose queue is the rest of the old one. -/
theorem step_of_hostLegal {s : State} (hcap : s.capacityInv = true) (hlegal : s.hostLegal = true) :
    ∃ t, step s = .next t ∧ t.wmax = s.wmax ∧ t.host <:+ s.host := by
  by_cases hm : s.mover = some .host
  · rw [step_of_mover_host hm]
    exact State.hostMove_of_hostLegal (s := s.nextTurn) hcap hlegal
  · obtain ⟨t, ht, hwmax, hhost, -⟩ := step_frame_of_mover_ne_host hm
    exact ⟨t, ht, hwmax, hhost ▸ List.suffix_rfl⟩

theorem State.hostLegal_of_suffix {s t : State} (hwmax : t.wmax = s.wmax) (hsuffix : t.host <:+ s.host) (h : s.hostLegal = true) :
    t.hostLegal = true := by
  rw [State.hostLegal, hwmax]
  exact List.all_eq_true.mpr fun op hop => List.all_eq_true.mp h op (hsuffix.subset hop)

theorem step_keeps_hostLegal {s : State} (hcap : s.capacityInv = true) (hlegal : s.hostLegal = true) :
    ∃ t, step s = .next t ∧ t.capacityInv = true ∧ t.hostLegal = true := by
  obtain ⟨t, ht, hwmax, hsuffix⟩ := step_of_hostLegal hcap hlegal
  exact ⟨t, ht, by rw [State.capacityInv, hwmax]; exact hcap, State.hostLegal_of_suffix hwmax hsuffix hlegal⟩

theorem State.runsSafely_succ {s t : State} {k : Nat} (h : step s = .next t) (ht : t.runsSafely k) : s.runsSafely (k + 1) := by
  obtain ⟨u, hu⟩ := ht
  refine ⟨u, ?_⟩
  simp only [Host.Core.run, show core.step s = .next t from h]
  exact hu

theorem State.runsSafely_of_hostLegal {s : State} (hcap : s.capacityInv = true) (hlegal : s.hostLegal = true) (k : Nat) :
    s.runsSafely k := by
  induction k generalizing s with
  | zero => exact ⟨s, rfl⟩
  | succ k ih =>
    obtain ⟨t, ht, hcapt, hlegalt⟩ := step_keeps_hostLegal hcap hlegal
    exact State.runsSafely_succ ht (ih hcapt hlegalt)

/-- Settles O53: the host's accesses to come only ever become fewer, and a legal one is no bus error; the run is by induction on its
length. -/
theorem legalHostRunsSafely : Obligations.LegalHostRunsSafely := by
  unfold Obligations.LegalHostRunsSafely
  exact ⟨fun _ => step_keeps_hostLegal, fun _ k hcap hlegal => State.runsSafely_of_hostLegal hcap hlegal k⟩

end Sys2Proof.Machine

/-! SUPPORT. The command words (30_encoding.md R91 to R94): the fields and the word determine each other, and decoding is the
inverse of R93's table of fields. -/

namespace Sys2Proof

/-! ### Fields and words (R91) -/

/-- Which bit of which field stands at each place of the word. -/
theorem CmdFields.getLsbD_toWord (f : CmdFields) (j : Nat) :
    f.toWord.getLsbD j = if j < 4 then f.op.getLsbD j else if j = 4 then f.l else f.rsv.getLsbD (j - 5) := by
  have happend : f.toWord.getLsbD j = (f.rsv ++ BitVec.ofBool f.l ++ f.op : BitVec (27 + 1 + 4)).getLsbD j := rfl
  rw [happend, BitVec.getLsbD_append, BitVec.getLsbD_append]
  split
  · rfl
  · by_cases hl : j = 4
    · simp [hl]
    · simp [hl, show ¬ j - 4 < 1 by omega, show j - 4 - 1 = j - 5 by omega]

@[simp] theorem CmdFields.ofWord_toWord (f : CmdFields) : CmdFields.ofWord f.toWord = f := by
  have hop : f.toWord.extractLsb' 0 4 = f.op := by
    ext j hj
    simp [getLsbD_toWord, hj]
  have hl : f.toWord.getLsbD 4 = f.l := f.getLsbD_toWord 4
  have hrsv : f.toWord.extractLsb' 5 27 = f.rsv := by
    ext j hj
    simp [getLsbD_toWord, hj, show ¬ 5 + j < 4 by omega, show 5 + j ≠ 4 by omega]
  simp only [ofWord, hop, hl, hrsv]

@[simp] theorem CmdFields.toWord_ofWord (v : Word) : (CmdFields.ofWord v).toWord = v := by
  apply BitVec.eq_of_getLsbD_eq
  intro j hj
  rw [getLsbD_toWord]
  split
  · next hop => simp [ofWord, hop]
  split
  · next hl => rw [hl, ofWord]
  · simp [ofWord, show j - 5 < 27 by omega, show 5 + (j - 5) = j by omega]

/-- The fields read from a word are the given ones exactly when the word is built from these. -/
theorem CmdFields.ofWord_eq_iff {v : Word} {f : CmdFields} : CmdFields.ofWord v = f ↔ v = f.toWord :=
  ⟨fun h => by rw [← h, toWord_ofWord], fun h => by rw [h, ofWord_toWord]⟩

/-! ### The opcode map (R93) -/

/-- With L = 0, an operation that decodes is that of the command read. -/
theorem fields_of_decodeOp {op : BitVec 4} {i : Instr} (h : decodeOp op = .ok i) :
    i.fields = { op, l := false, rsv := 0#27 } := by
  unfold decodeOp at h
  split at h <;> cases h <;> next hop => exact congrArg (CmdFields.mk · false 0#27) (BitVec.eq_of_toNat_eq hop.symm)

/-- With L = 1, an operation that decodes is that of the command read. -/
theorem fields_of_decodeOpL {op : BitVec 4} {i : Instr} (h : decodeOpL op = .ok i) :
    i.fields = { op, l := true, rsv := 0#27 } := by
  unfold decodeOpL at h
  split at h <;> cases h <;> next hop => exact congrArg (CmdFields.mk · true 0#27) (BitVec.eq_of_toNat_eq hop.symm)

@[simp] theorem decodeFields_fields (i : Instr) : decodeFields i.fields = .ok i := by cases i <;> rfl

theorem decodeFields_eq_ok_iff {f : CmdFields} {i : Instr} : decodeFields f = .ok i ↔ f = i.fields := by
  constructor
  · intro h
    obtain ⟨op, l, rsv⟩ := f
    unfold decodeFields at h
    split at h
    · cases h
    · next hrsv =>
      obtain rfl : rsv = 0#27 := not_not.mp hrsv
      cases l
      · exact (fields_of_decodeOp h).symm
      · exact (fields_of_decodeOpL h).symm
  · rintro rfl
    exact decodeFields_fields i

theorem decode_eq_ok_iff {v : Word} {i : Instr} : decode v = .ok i ↔ v = encode i :=
  calc decode v = .ok i
    _ ↔ CmdFields.ofWord v = i.fields := decodeFields_eq_ok_iff
    _ ↔ v = encode i := CmdFields.ofWord_eq_iff

/-- Settles O1: decoding inverts the table of fields, and the fields and the word determine each other. -/
theorem decodeAndEncodeAgree : Obligations.DecodeAndEncodeAgree := by
  unfold Obligations.DecodeAndEncodeAgree
  exact fun _ _ => decode_eq_ok_iff

/-! ### Tables over all commands -/

/-- In a table that lists each command beside its value, a value stands beside a command exactly when it is the command's. -/
theorem mk_mem_table_iff {α : Type} {value : Instr → α} {order : List Instr} (hall : ∀ i, i ∈ order) {a : α} {i : Instr} :
    (a, i) ∈ order.map (fun j => (value j, j)) ↔ a = value i := by
  simp only [List.mem_map, Prod.mk.injEq]
  constructor
  · rintro ⟨j, -, rfl, rfl⟩
    rfl
  · rintro rfl
    exact ⟨i, hall i, rfl, rfl⟩

/-- The commands by rising command word (R93). -/
def instrsByWord : List Instr :=
  [.nop, .pack, .unpack, .keypack, .encr, .decr, .encrypt, .decrypt, .srst, .packL, .unpackL]

theorem mem_instrsByWord (i : Instr) : i ∈ instrsByWord := by cases i <;> decide

/-- Settles O2: the listed pairs are the commands beside their encoded words, and a word decodes to the command it encodes. -/
theorem legalWordsAreTheElevenOfTheMap : Obligations.LegalWordsAreTheElevenOfTheMap := by
  unfold Obligations.LegalWordsAreTheElevenOfTheMap
  intro v i
  exact decode_eq_ok_iff.trans (mk_mem_table_iff (value := encode) mem_instrsByWord).symm

/-- Settles O3: each word is closed, so its decoding is evaluated. -/
theorem wordsOfTheTableDecode : Obligations.WordsOfTheTableDecode := by
  unfold Obligations.WordsOfTheTableDecode
  decide

end Sys2Proof

/-! SUPPORT. The mnemonics of host scripts (30_encoding.md R97). -/

namespace Sys2Proof.Machine

theorem mem_allInstrs (i : Instr) : i ∈ allInstrs := by cases i <;> decide

theorem Instr.mnemonicChars_injective : Function.Injective Instr.mnemonicChars := by
  have hnodup : (allInstrs.map Instr.mnemonicChars).Nodup := by decide
  exact fun i j h => List.inj_on_of_nodup_map hnodup (mem_allInstrs i) (mem_allInstrs j) h

/-- A text names a command exactly when it is the command's mnemonic in some spelling by case: the search meets a command with
that mnemonic, and no two commands share one. -/
theorem readMnemonic_eq_some_iff {t : List Char} {i : Instr} :
    readMnemonic t = some i ↔ t.map Char.toUpper = Instr.mnemonicChars i := by
  have hread {j : Instr} (h : readMnemonic t = some j) : Instr.mnemonicChars j = t.map Char.toUpper := by
    simpa using List.find?_some h
  constructor
  · exact fun h => (hread h).symm
  · intro h
    have hfound : (readMnemonic t).isSome := List.find?_isSome.mpr ⟨i, mem_allInstrs i, by simp [h]⟩
    obtain ⟨j, hj⟩ := Option.isSome_iff_exists.mp hfound
    rw [hj, Instr.mnemonicChars_injective ((hread hj).trans h)]

/-- Settles O60: the listed pairs are the commands beside their mnemonics, and `CMD` expands by definition to the write of R99. -/
theorem scriptMnemonicsAndCmd : Obligations.ScriptMnemonicsAndCmd := by
  unfold Obligations.ScriptMnemonicsAndCmd
  refine ⟨fun t i => ?_, fun _ => rfl⟩
  exact readMnemonic_eq_some_iff.trans (mk_mem_table_iff (value := Instr.mnemonicChars) mem_allInstrs).symm

end Sys2Proof.Machine

/-! SUPPORT. The packing engine (40_packing.md): the pure functions of R110 to R112 byte by byte and their round trip, and the full
effect of the two shared steps of the packing commands, which PACK, PACK.L, UNPACK and UNPACK.L only guard with their checks. -/

namespace Sys2Proof.Machine

/-! ### Packed words (R110) and key words (R111) -/

/-- A packed word past the end of the bytes is zero. -/
theorem packWord_of_length_le {src : List Byte} {k : Nat} (h : src.length ≤ 4 * k) : packWord src k = 0#32 := by
  apply word_eq_of_bytes
  intro j hj
  rw [byteOf_packWord _ _ hj, List.getD_eq_default _ _ (by omega)]
  simp [byteOf]

/-- Without a length word, the packed words padded with zeros are `packWord` at every index. -/
theorem packWords_false_getD (src : List Byte) (k : Nat) : (packWords src false).getD k 0#32 = packWord src k := by
  rcases Nat.lt_or_ge k (ceil4 src.length) with h | h
  · exact packWords_getD_data src false h
  · rw [packWord_of_length_le (by unfold ceil4 at h; omega), List.getD_eq_default _ _ (by simpa using h)]

theorem keyWords_at (kb : List Byte) (klen : Nat) {k : Nat} (hk : k < 4) :
    (keyWords kb klen).at (BitVec.ofNat 2 k) = packWord (kb.take klen) k := by
  match k, hk with
  | 0, _ | 1, _ | 2, _ | 3, _ => rfl

theorem byteOf_keyWords_at (kb : List Byte) (klen : Nat) {k j : Nat} (hk : k < 4) (hj : j < 4) :
    byteOf ((keyWords kb klen).at (BitVec.ofNat 2 k)) j = if 4 * k + j < klen then kb.getD (4 * k + j) 0#8 else 0#8 := by
  rw [keyWords_at kb klen hk, byteOf_packWord _ _ hj]
  simp only [List.getD_eq_getElem?_getD, List.getElem?_take]
  split <;> rfl

/-- Settles O15: the data words are the source bytes in order, and the length word fits 32 bits. -/
theorem packWordsPutsBytesInOrder : Obligations.PackWordsPutsBytesInOrder := by
  unfold Obligations.PackWordsPutsBytesInOrder
  intro src l hlen
  refine ⟨packWords_length src l, fun i hi => byteOf_packWords src l hi, ?_⟩
  rintro rfl
  exact (congrArg BitVec.toNat (packWords_getD_length src)).trans (Nat.mod_eq_of_lt hlen)

/-- Settles O16: a key word is `packWord` of the first `klen` bytes, and so is the padded packed word. -/
theorem keyWordsArePackedAndZeroPadded : Obligations.KeyWordsArePackedAndZeroPadded := by
  unfold Obligations.KeyWordsArePackedAndZeroPadded
  intro kb klen k _ _ hk
  exact ⟨fun j hj => byteOf_keyWords_at kb klen hk hj, (keyWords_at kb klen hk).trans (packWords_false_getD _ k).symm⟩

/-! ### The round trip (R118) -/

theorem length_le_four_mul_ceil4 (n : Nat) : n ≤ 4 * ceil4 n := by
  unfold ceil4
  omega

/-- The first `len` bytes of the packed words are the source bytes. -/
theorem unpackOut_packWords (src : List Byte) (l : Bool) : unpackOut (packWords src l) src.length = src ++ [0#8] := by
  have hbytes : (List.range src.length).map (unpackByte (packWords src l)) = src := by
    refine List.ext_getElem (by simp) fun i _ hi => ?_
    have hdata : i < 4 * ceil4 src.length := hi.trans_le (length_le_four_mul_ceil4 _)
    rw [List.getElem_map, List.getElem_range, unpackByte, byteOf_packWords src l hdata, List.getD_eq_getElem _ _ hi]
  rw [unpackOut, hbytes]

/-- The embedded length is below the bound of the check, since the bound counts the length word as well (90_conflicts.md C2). -/
theorem unpackBytes_packWords_true {src : List Byte} (hlen : src.length < 2 ^ 32) :
    unpackBytes (packWords src true) true = some (src.length, src ++ [0#8]) := by
  have hlast : ((packWords src true).getD ((packWords src true).length - 1) 0#32).toNat = src.length := by
    rw [packWords_length, if_pos rfl, Nat.add_sub_cancel, packWords_getD_length]
    exact Nat.mod_eq_of_lt hlen
  have hbound : ¬ src.length > 4 * (packWords src true).length := by
    have := length_le_four_mul_ceil4 src.length
    simp only [packWords_length, if_true]
    omega
  simp only [unpackBytes, if_true, hlast, if_neg hbound, unpackOut_packWords]

theorem unpackBytes_packWords_false {src : List Byte} {k : Nat} (hlen : src.length = 4 * k) :
    unpackBytes (packWords src false) false = some (4 * k, src ++ [0#8]) := by
  have hwords : 4 * (packWords src false).length = src.length := by
    simp only [packWords_length, ceil4, Bool.false_eq_true, if_false]
    omega
  rw [← hlen]
  simp only [unpackBytes, Bool.false_eq_true, if_false, hwords, unpackOut_packWords]

/-- Settles O17: a legal capacity keeps the length below `2^32`, and whole words need no length word. -/
theorem unpackInvertsPack : Obligations.UnpackInvertsPack := by
  unfold Obligations.UnpackInvertsPack
  refine ⟨fun wmax src hwmax hlen => unpackBytes_packWords_true ?_, fun src k => unpackBytes_packWords_false⟩
  obtain ⟨-, hmax⟩ := (wmaxOk_iff wmax).mp hwmax
  omega

/-! ### KEYPACK (R117) -/

/-- Settles O14: KBUF's sixteen bytes cover every position of the four key words. -/
theorem keypackPacksKeyBytes : Obligations.KeypackPacksKeyBytes := by
  unfold Obligations.KeypackPacksKeyBytes
  refine ⟨decode_eq_ok_iff.mpr rfl, fun s => ⟨s.packKey.complete .ok, rfl, rfl, fun k hk j hj => ?_⟩⟩
  have hkbuf : s.keyBytes.getD (4 * k + j) 0#8 = s.byteAt .kbuf (4 * k + j) := s.bytes_getD .kbuf (by omega)
  rw [State.complete_key, State.packKey_key, byteOf_keyWords_at _ _ hk hj, hkbuf]

/-! ### PACK and PACK.L (R113, R114) -/

/-- The register frame of a pack that completes. -/
theorem State.packInput_complete_eq (s : State) (l : Bool) : (s.packInput l).complete .ok =
    { s with mem := (s.packInput l).mem, wcnt := BitVec.ofNat 32 (ceil4 s.len.toNat + (if l then 1 else 0)), err := 0#4,
             done := true, busy := false } := by
  ext1 <;> simp [ErrorCode.code]

/-- The length word `packInput` leaves in WBUF. -/
theorem State.wordAt_packInput_length (s : State) : (s.packInput true).wordAt (ceil4 s.len.toNat) = s.len := by
  have hstore : (s.packInput true).wordAt (ceil4 s.len.toNat) =
      (s.storeWords (packWords s.inputBytes true)).wordAt (ceil4 s.len.toNat) := State.wordAt_congr rfl rfl _
  rw [hstore, State.wordAt_storeWords, if_pos (by simp), ← s.inputBytes_length, packWords_getD_length, s.inputBytes_length,
    BitVec.ofNat_toNat, BitVec.setWidth_eq]

/-- Settles O10: PACK is `packInput` without the length word, behind the capacity check. -/
theorem packWritesInputAsWords : Obligations.PackWritesInputAsWords := by
  unfold Obligations.PackWritesInputAsWords
  refine ⟨decode_eq_ok_iff.mpr rfl, fun s => ⟨fun hover => if_pos hover, fun hfit => ?_⟩⟩
  exact ⟨(s.packInput false).complete .ok, if_neg (Nat.not_lt.mpr hfit), s.packInput_complete_eq false,
    fun i hi => s.byteAt_packInput false hi, fun a ha => s.cellAt_packInput_of_outside false ha⟩

/-- Settles O11: PACK.L is `packInput` with the length word, behind the capacity check. -/
theorem packLWritesInputAndLengthWord : Obligations.PackLWritesInputAndLengthWord := by
  unfold Obligations.PackLWritesInputAndLengthWord
  refine ⟨decode_eq_ok_iff.mpr rfl, fun s => ⟨fun hover => if_pos hover, fun hfit => ?_⟩⟩
  exact ⟨(s.packInput true).complete .ok, if_neg (Nat.not_lt.mpr hfit), s.packInput_complete_eq true,
    fun i hi => s.byteAt_packInput true hi, s.wordAt_packInput_length, fun a ha => s.cellAt_packInput_of_outside true ha⟩

/-! ### UNPACK and UNPACK.L (R115, R116) -/

/-- The state in which an unpack of `m` bytes completes: `OBUF[0 .. m] <- out; OUTLEN <- m` (R115, R116). -/
def State.unpackComplete (m : Nat) (s : State) : State :=
  State.complete .ok { s.storeOut (unpackOut s.wordArray m) with outlen := BitVec.ofNat 32 m }

/-- The register frame of an unpack that completes. -/
theorem State.unpackComplete_eq (s : State) (m : Nat) : s.unpackComplete m =
    { s with mem := (s.unpackComplete m).mem, outlen := BitVec.ofNat 32 m, err := 0#4, done := true, busy := false } := by
  unfold State.unpackComplete
  ext1 <;> simp [ErrorCode.code]

theorem State.cellAt_unpackComplete (s : State) (m a : Nat) : (s.unpackComplete m).cellAt a =
    if Buf.obuf.base ≤ a ∧ a < Buf.obuf.base + (m + 1) then (unpackOut s.wordArray m).getD (a - Buf.obuf.base) 0#8
    else s.cellAt a := by
  have hstore : (s.unpackComplete m).cellAt a = (s.storeOut (unpackOut s.wordArray m)).cellAt a := State.cellAt_congr rfl rfl a
  rw [hstore, State.cellAt_storeOut, unpackOut_length]

theorem State.byteAt_unpackComplete (s : State) {m i : Nat} (hi : i ≤ m) :
    (s.unpackComplete m).byteAt .obuf i = (unpackOut s.wordArray m).getD i 0#8 := by
  rw [State.byteAt, State.cellAt_unpackComplete, if_pos (by omega), Nat.add_sub_cancel_left]

/-- An unpacked byte is a byte of a word of WBUF, when the count stays inside the words (R112). -/
theorem State.byteAt_unpackComplete_data (s : State) {m i : Nat} (hm : m ≤ 4 * s.wcnt.toNat) (hi : i < m) :
    (s.unpackComplete m).byteAt .obuf i = byteOf (s.wordAt (i / 4)) (i % 4) := by
  rw [s.byteAt_unpackComplete hi.le, unpackOut_getD _ hi, unpackByte, State.wordArray, State.words_getD _ (by omega)]

/-- The terminating zero (R112). -/
theorem State.byteAt_unpackComplete_end (s : State) (m : Nat) : (s.unpackComplete m).byteAt .obuf m = 0#8 :=
  (s.byteAt_unpackComplete le_rfl).trans (unpackOut_getD_end _ m)

theorem State.finishUnpack_false (s : State) : s.finishUnpack false = s.unpackComplete (4 * s.wcnt.toNat) := by
  simp [State.finishUnpack, unpackBytes, State.unpackComplete]

/-- The embedded length is the last word of the array, which there is when WCNT is not 0. -/
theorem State.finishUnpack_true {s : State} (hpos : s.wcnt ≠ 0#32) : s.finishUnpack true =
    if 4 * s.wcnt.toNat < (s.wordAt (s.wcnt.toNat - 1)).toNat then s.raise .corruptData
    else s.unpackComplete (s.wordAt (s.wcnt.toNat - 1)).toNat := by
  have hne : s.wcnt.toNat ≠ 0 := fun e => hpos (BitVec.eq_of_toNat_eq e)
  have hlast : s.wordArray.getD (s.wcnt.toNat - 1) 0#32 = s.wordAt (s.wcnt.toNat - 1) := s.words_getD (by omega)
  rcases s.finishUnpack_cases true with ⟨-, hlt, h⟩ | ⟨m, rfl, hle, h⟩
  · rw [h, if_pos (hlast ▸ hlt)]
  · rw [if_pos rfl, hlast] at hle h
    rw [h, if_neg (Nat.not_lt.mpr hle), State.unpackComplete]

/-- Settles O12: UNPACK is an unpack of all bytes of the words, behind the capacity check. -/
theorem unpackWritesWordsAsBytes : Obligations.UnpackWritesWordsAsBytes := by
  unfold Obligations.UnpackWritesWordsAsBytes
  refine ⟨decode_eq_ok_iff.mpr rfl, fun s => ⟨fun hover => if_pos hover, fun hfit => ?_⟩⟩
  have hexec : exec .unpack s = .next (s.finishUnpack false) := if_neg (Nat.not_lt.mpr hfit)
  exact ⟨s.unpackComplete (4 * s.wcnt.toNat), s.finishUnpack_false ▸ hexec, s.unpackComplete_eq _,
    fun i hi => s.byteAt_unpackComplete_data le_rfl hi, s.byteAt_unpackComplete_end _,
    fun a ha => (s.cellAt_unpackComplete _ a).trans (if_neg ha)⟩

/-- UNPACK.L past its checks of WCNT (R116). -/
theorem exec_unpackL_of_fits {s : State} (hpos : s.wcnt ≠ 0#32) (hfit : s.wcnt.toNat ≤ s.wmax) :
    exec .unpackL s = .next (s.finishUnpack true) :=
  (if_neg hpos).trans (if_neg (Nat.not_lt.mpr hfit))

/-- Settles O13: UNPACK.L is an unpack of as many bytes as the last word says, behind the checks in the order of R116. -/
theorem unpackLChecksAndWritesBytes : Obligations.UnpackLChecksAndWritesBytes := by
  unfold Obligations.UnpackLChecksAndWritesBytes
  refine ⟨decode_eq_ok_iff.mpr rfl, fun s => ⟨fun hzero => if_pos hzero, fun hpos hover => (if_neg hpos).trans (if_pos hover),
    fun hpos hfit hcorrupt => ?_, fun hpos hfit hlen => ?_⟩⟩
  · rw [exec_unpackL_of_fits hpos hfit, State.finishUnpack_true hpos, if_pos hcorrupt]
    rfl
  · have hframe := s.unpackComplete_eq (s.wordAt (s.wcnt.toNat - 1)).toNat
    rw [BitVec.ofNat_toNat, BitVec.setWidth_eq] at hframe
    refine ⟨s.unpackComplete (s.wordAt (s.wcnt.toNat - 1)).toNat, ?_, hframe, fun i hi => s.byteAt_unpackComplete_data hlen hi,
      s.byteAt_unpackComplete_end _, fun a ha => (s.cellAt_unpackComplete _ a).trans (if_neg ha)⟩
    rw [exec_unpackL_of_fits hpos hfit, State.finishUnpack_true hpos, if_neg (Nat.not_lt.mpr hlen)]

end Sys2Proof.Machine

/-! SUPPORT. The pure functions of the round mixer (41_round_transform.md R140 to R147, R150 to R152). Each loop is brought to the
index form of R152, in which a step reads both neighbours of its word and no value is carried from step to step; there one
transform undoes the other step by step, in the opposite order. -/

namespace Sys2Proof.Machine

/-! ### MX (R143, R144) and the round count (R141) -/

theorem KeyWords.getElem?_eq_at (key : KeyWords) (i : BitVec 2) :
    [key.k0, key.k1, key.k2, key.k3][i.toNat]? = some (key.at i) := by
  have hfour : ∀ i : BitVec 2, i = 0#2 ∨ i = 1#2 ∨ i = 2#2 ∨ i = 3#2 := by decide
  rcases hfour i with rfl | rfl | rfl | rfl <;> rfl

theorem keyIndex_toNat (p : Nat) (e : BitVec 2) : (keyIndex p e).toNat = (p % 4) ^^^ e.toNat :=
  (BitVec.toNat_xor ..).trans (congrArg (· ^^^ e.toNat) (BitVec.toNat_ofNat p 2))

/-- Settles O18: the key index is a two-bit value, so it names one of the four key words. -/
theorem mixingFunctionFormula : Obligations.MixingFunctionFormula := by
  unfold Obligations.MixingFunctionFormula
  intro z y sum e p key
  exact ⟨key.at (keyIndex p e), keyIndex_toNat p e ▸ key.getElem?_eq_at (keyIndex p e), rfl⟩

/-- The quotient of R141 from the bounds on `n` that a row of its table gives. -/
theorem roundCount_eq {n k : Nat} (hlo : k * n ≤ 52) (hhi : 52 < (k + 1) * n) : roundCount n = 6 + k :=
  congrArg (6 + ·) (Nat.div_eq_of_lt_le hlo hhi)

/-- Settles O19: each row is a quotient's bounds on `n`. -/
theorem roundCountTable : Obligations.RoundCountTable := by
  unfold Obligations.RoundCountTable
  intro n _
  refine ⟨rfl,
    fun _ => roundCount_eq (k := 26) ?_ ?_, fun _ => roundCount_eq (k := 17) ?_ ?_, fun _ => roundCount_eq (k := 13) ?_ ?_,
    fun _ => roundCount_eq (k := 10) ?_ ?_, fun _ => roundCount_eq (k := 8) ?_ ?_, fun _ => roundCount_eq (k := 7) ?_ ?_,
    fun _ => roundCount_eq (k := 6) ?_ ?_, fun _ _ => roundCount_eq (k := 5) ?_ ?_, fun _ _ => roundCount_eq (k := 4) ?_ ?_,
    fun _ _ => roundCount_eq (k := 3) ?_ ?_, fun _ _ => roundCount_eq (k := 2) ?_ ?_, fun _ _ => roundCount_eq (k := 1) ?_ ?_,
    fun _ => roundCount_eq (k := 0) ?_ ?_⟩ <;> omega

theorem roundCount_le {n : Nat} (hn : 2 ≤ n) : roundCount n ≤ 32 :=
  Nat.add_le_add_left (Nat.div_le_div_left hn (by decide)) 6

/-! ### The sums of the rounds (R140, R151) -/

/-- DELTA is odd, so it has an inverse modulo `2^32`. -/
theorem isUnit_DELTA : IsUnit DELTA :=
  IsUnit.of_mul_eq_one 0x144cbc89#32 (by decide)

theorem ofNat_mul_DELTA_inj {j k : Nat} (hj : j < 2 ^ 32) (hk : k < 2 ^ 32) :
    BitVec.ofNat 32 j * DELTA = BitVec.ofNat 32 k * DELTA ↔ j = k := by
  rw [isUnit_DELTA.mul_left_inj, ← BitVec.toNat_inj, BitVec.toNat_ofNat, BitVec.toNat_ofNat, Nat.mod_eq_of_lt hj, Nat.mod_eq_of_lt hk]

theorem ofNat_succ_mul_DELTA (k : Nat) : BitVec.ofNat 32 (k + 1) * DELTA = BitVec.ofNat 32 k * DELTA + DELTA := by
  rw [BitVec.ofNat_add, BitVec.add_mul, BitVec.one_mul]

@[simp] theorem decLoop_zero_sum (key : KeyWords) (n fuel : Nat) (a : List Word × Word) : decLoop key n fuel 0#32 a = a := by
  cases fuel <;> simp [decLoop]

/-- One turn of the loop of R147 that starts at a sum `(q + 1) * DELTA`, which is not 0. -/
theorem decLoop_succ (key : KeyWords) (n fuel : Nat) {q : Nat} (hq : q + 1 < 2 ^ 32) (a : List Word × Word) :
    decLoop key n (fuel + 1) (BitVec.ofNat 32 (q + 1) * DELTA) a =
      decLoop key n fuel (BitVec.ofNat 32 q * DELTA) (decRound key n (BitVec.ofNat 32 (q + 1) * DELTA) a) := by
  have hne : ¬ BitVec.ofNat 32 (q + 1) * DELTA = 0#32 := by
    rw [← BitVec.zero_mul (x := DELTA), ofNat_mul_DELTA_inj hq (by decide)]
    exact Nat.succ_ne_zero q
  rw [decLoop, if_neg hne, ofNat_succ_mul_DELTA, BitVec.add_sub_cancel]

theorem decLoop_of_le (key : KeyWords) (n : Nat) {q fuel : Nat} (hq : q < 2 ^ 32) (hfuel : q ≤ fuel) (a : List Word × Word) :
    decLoop key n fuel (BitVec.ofNat 32 q * DELTA) a = decLoop key n q (BitVec.ofNat 32 q * DELTA) a := by
  induction q generalizing fuel a with
  | zero => simp
  | succ q ih =>
    obtain ⟨fuel, rfl⟩ := Nat.exists_eq_add_one_of_ne_zero (Nat.ne_zero_of_lt hfuel)
    rw [decLoop_succ _ _ _ hq, decLoop_succ _ _ _ hq, ih (by omega) (by omega)]

/-- Settles O22: DELTA is invertible, so its first `2^32` multiples are distinct and only the 0-th is 0. -/
theorem decryptLoopRunsQTimes : Obligations.DecryptLoopRunsQTimes := by
  unfold Obligations.DecryptLoopRunsQTimes
  refine ⟨fun n k hn hk => ?_, fun key n fuel a hn hfuel => ?_, by decide, by decide, by decide, by decide, by decide, fun n hn => ?_⟩
  · have hq := roundCount_le hn
    exact (sub_eq_zero.trans (ofNat_mul_DELTA_inj (by omega) (by omega))).trans eq_comm
  · have hq := roundCount_le hn
    exact decLoop_of_le key (n - 1) (by omega) hfuel a
  · rw [roundCount_eq (k := 0) (by omega) (by omega)]
    decide

/-! ### One step of the index form (R152) -/

theorem wordIn_set_self {w : List Word} {p : Nat} (hp : p < w.length) (x : Word) : wordIn (w.set p x) p = x := by
  simp [wordIn, hp]

theorem wordIn_set_ne {w : List Word} {p i : Nat} (h : p ≠ i) (x : Word) : wordIn (w.set p x) i = wordIn w i := by
  simp [wordIn, List.getElem?_set_ne h]

/-- The neighbour `w[(p - 1) mod N]` of R152. -/
def leftWord (w : List Word) (p : Nat) : Word := wordIn w ((p + w.length - 1) % w.length)

/-- The neighbour `w[(p + 1) mod N]` of R152. -/
def rightWord (w : List Word) (p : Nat) : Word := wordIn w ((p + 1) % w.length)

theorem leftWord_succ {w : List Word} {p : Nat} (hp : p < w.length) : leftWord w (p + 1) = wordIn w p := by
  rw [leftWord, show p + 1 + w.length - 1 = p + w.length by omega, Nat.add_mod_right, Nat.mod_eq_of_lt hp]

theorem leftWord_zero {w : List Word} {n : Nat} (hw : w.length = n + 1) : leftWord w 0 = wordIn w n := by
  rw [leftWord, hw, Nat.zero_add, Nat.add_sub_cancel, Nat.mod_eq_of_lt (Nat.lt_succ_self n)]

theorem rightWord_of_lt {w : List Word} {p : Nat} (hp : p + 1 < w.length) : rightWord w p = wordIn w (p + 1) := by
  rw [rightWord, Nat.mod_eq_of_lt hp]

theorem rightWord_last {w : List Word} {n : Nat} (hw : w.length = n + 1) : rightWord w n = wordIn w 0 := by
  rw [rightWord, hw, Nat.mod_self]

/-- With two or more words, a step at `p` leaves the left neighbour of `p`. -/
theorem leftWord_set {w : List Word} {p : Nat} (hw : 2 ≤ w.length) (hp : p < w.length) (x : Word) :
    leftWord (w.set p x) p = leftWord w p := by
  have hne : p ≠ (p + w.length - 1) % w.length := by
    rcases p with - | p
    · rw [Nat.mod_eq_of_lt (by omega)]
      omega
    · rw [show p + 1 + w.length - 1 = p + w.length by omega, Nat.add_mod_right, Nat.mod_eq_of_lt (by omega)]
      omega
  rw [leftWord, List.length_set, wordIn_set_ne hne, leftWord]

/-- With two or more words, a step at `p` leaves the right neighbour of `p`. -/
theorem rightWord_set {w : List Word} {p : Nat} (hw : 2 ≤ w.length) (hp : p < w.length) (x : Word) :
    rightWord (w.set p x) p = rightWord w p := by
  have hne : p ≠ (p + 1) % w.length := by
    rcases Nat.lt_or_eq_of_le (Nat.succ_le_of_lt hp) with h | h
    · rw [Nat.mod_eq_of_lt h]
      omega
    · rw [← Nat.succ_eq_add_one, h, Nat.mod_self]
      omega
  rw [rightWord, List.length_set, wordIn_set_ne hne, rightWord]

/-- What a step of the index form does, in terms of the neighbours and of the model's own `e` (R142). -/
theorem indexStep_eq (sub : Bool) (key : KeyWords) (sum : Word) (w : List Word) (p : Nat) : indexStep sub key sum w p =
    w.set p (if sub then wordIn w p - mx (leftWord w p) (rightWord w p) sum (roundE sum) p key
      else wordIn w p + mx (leftWord w p) (rightWord w p) sum (roundE sum) p key) := by
  rw [roundE_eq]
  rfl

@[simp] theorem indexStep_length (sub : Bool) (key : KeyWords) (sum : Word) (w : List Word) (p : Nat) :
    (indexStep sub key sum w p).length = w.length := by
  rw [indexStep_eq, List.length_set]

/-- A step of either direction undoes the same step of the other: both see the same neighbours. -/
theorem indexStep_not_indexStep (sub : Bool) (key : KeyWords) (sum : Word) {w : List Word} {p : Nat} (hw : 2 ≤ w.length)
    (hp : p < w.length) : indexStep (!sub) key sum (indexStep sub key sum w p) p = w := by
  rw [indexStep_eq sub, indexStep_eq, leftWord_set hw hp, rightWord_set hw hp, wordIn_set_self hp, List.set_set]
  have hword : wordIn w p = w[p] := List.getD_eq_getElem w 0#32 hp
  cases sub <;> simp [hword]

theorem encUpdate_eq (key : KeyWords) (sum : Word) {w : List Word} {p : Nat} (hp : p < w.length) :
    encUpdate key sum w (leftWord w p) (rightWord w p) p =
      (indexStep false key sum w p, wordIn (indexStep false key sum w p) p) := by
  rw [indexStep_eq, wordIn_set_self hp]
  rfl

theorem decUpdate_eq (key : KeyWords) (sum : Word) {w : List Word} {p : Nat} (hp : p < w.length) :
    decUpdate key sum w (leftWord w p) (rightWord w p) p =
      (indexStep true key sum w p, wordIn (indexStep true key sum w p) p) := by
  rw [indexStep_eq, wordIn_set_self hp]
  rfl

/-! ### Orders: encryption runs forward, decryption backward -/

/-- The order in which a transform goes through rounds and words: as listed for encryption, reversed for decryption. -/
def inOrder (sub : Bool) (l : List Nat) : List Nat := if sub then l.reverse else l

@[simp] theorem mem_inOrder {sub : Bool} {l : List Nat} {i : Nat} : i ∈ inOrder sub l ↔ i ∈ l := by
  cases sub <;> simp [inOrder]

theorem downFrom_eq (n : Nat) : downFrom n = ((List.range n).map Nat.succ).reverse := by
  refine List.ext_getElem (by simp [downFrom]) fun i hi _ => ?_
  have hn : i < n := by simpa [downFrom] using hi
  simp only [downFrom, List.getElem_map, List.getElem_range, List.getElem_reverse, List.length_map, List.length_range]
  omega

theorem downFrom_succ (n : Nat) : downFrom (n + 1) = (n + 1) :: downFrom n := by
  simp [downFrom_eq, List.range_succ]

theorem reverse_range_succ (n : Nat) : (List.range (n + 1)).reverse = downFrom n ++ [0] := by
  rw [List.range_succ_eq_map, List.reverse_cons, downFrom_eq]

/-- A fold in reverse order undoes a fold when each of its steps undoes the step of the other, on states that the steps keep in
`P`. -/
theorem foldl_reverse_foldl {α β : Type} {P : α → Prop} {f g : α → β → α} (hP : ∀ a c, P a → P (f a c)) {cs : List β}
    (hundo : ∀ a, ∀ c ∈ cs, P a → g (f a c) c = a) {a : α} (ha : P a) : cs.reverse.foldl g (cs.foldl f a) = a := by
  induction cs generalizing a with
  | nil => rfl
  | cons c cs ih =>
    rw [List.foldl_cons, List.reverse_cons, List.foldl_append,
      ih (fun b d hd => hundo b d (List.mem_cons_of_mem c hd)) (hP a c ha)]
    exact hundo a c List.mem_cons_self ha

/-- The same for the two transforms' orders. -/
theorem foldl_inOrder_not_foldl_inOrder {α : Type} {P : α → Prop} {f : Bool → α → Nat → α} (hP : ∀ sub a i, P a → P (f sub a i))
    {l : List Nat} (hundo : ∀ sub a, ∀ i ∈ l, P a → f (!sub) (f sub a i) i = a) (sub : Bool) {a : α} (ha : P a) :
    (inOrder (!sub) l).foldl (f !sub) ((inOrder sub l).foldl (f sub) a) = a := by
  have hreverse : inOrder (!sub) l = (inOrder sub l).reverse := by cases sub <;> simp [inOrder]
  rw [hreverse]
  exact foldl_reverse_foldl (hP sub) (fun b i hi => hundo sub b i (mem_inOrder.mp hi)) ha

/-! ### The rounds of the index form (R152) -/

/-- One round of the index form, over an array of `n` words. -/
def indexRound (sub : Bool) (key : KeyWords) (n : Nat) (sum : Word) (w : List Word) : List Word :=
  (inOrder sub (List.range n)).foldl (indexStep sub key sum) w

theorem indexRounds_eq (sub : Bool) (key : KeyWords) (w : List Word) : indexRounds sub key w =
    (inOrder sub ((List.range (roundCount w.length)).map Nat.succ)).foldl
      (fun v r => indexRound sub key w.length (BitVec.ofNat 32 r * DELTA) v) w := by
  cases sub
  · simp only [inOrder, Bool.false_eq_true, if_false, List.foldl_map]
    rfl
  · simp only [inOrder, if_true, ← downFrom_eq, downFrom, List.foldl_map]
    rfl

theorem foldl_indexStep_length (sub : Bool) (key : KeyWords) (sum : Word) (l : List Nat) (w : List Word) :
    (l.foldl (indexStep sub key sum) w).length = w.length :=
  List.foldlRecOn (motive := fun v : List Word => v.length = w.length) l _ rfl fun _ hv _ _ => (indexStep_length ..).trans hv

@[simp] theorem indexRound_length (sub : Bool) (key : KeyWords) (n : Nat) (sum : Word) (w : List Word) :
    (indexRound sub key n sum w).length = w.length :=
  foldl_indexStep_length ..

@[simp] theorem indexRounds_length (sub : Bool) (key : KeyWords) (w : List Word) : (indexRounds sub key w).length = w.length := by
  rw [indexRounds_eq]
  exact List.foldlRecOn (motive := fun v : List Word => v.length = w.length) _ _ rfl fun _ hv _ _ => (indexRound_length ..).trans hv

theorem indexRound_not_indexRound (sub : Bool) (key : KeyWords) (sum : Word) {n : Nat} {w : List Word} (hn : 2 ≤ n)
    (hw : w.length = n) : indexRound (!sub) key n sum (indexRound sub key n sum w) = w :=
  foldl_inOrder_not_foldl_inOrder (P := fun v => v.length = n) (f := fun sub => indexStep sub key sum)
    (fun _ _ _ hv => (indexStep_length ..).trans hv)
    (fun sub _ _ hp hv => indexStep_not_indexStep sub key sum (hv ▸ hn) (hv ▸ List.mem_range.mp hp)) sub hw

theorem indexRounds_not_indexRounds (sub : Bool) (key : KeyWords) {w : List Word} (hw : 2 ≤ w.length) :
    indexRounds (!sub) key (indexRounds sub key w) = w := by
  rw [indexRounds_eq (!sub), indexRounds_length, indexRounds_eq sub]
  exact foldl_inOrder_not_foldl_inOrder (P := fun v => v.length = w.length)
    (f := fun sub v r => indexRound sub key w.length (BitVec.ofNat 32 r * DELTA) v)
    (fun _ _ _ hv => (indexRound_length ..).trans hv)
    (fun sub _ _ _ hv => indexRound_not_indexRound sub key _ hw hv) sub rfl

/-! ### The loops run the index form (R146, R147, R152) -/

/-- Before the step at `k` of a round of R146, `z` is the left neighbour of `w[k]`. -/
theorem foldl_encUpdate (key : KeyWords) (sum : Word) {w : List Word} {k : Nat} (hk : k < w.length) :
    (List.range k).foldl (fun a p => encUpdate key sum a.1 a.2 (wordIn a.1 (p + 1)) p) (w, leftWord w 0) =
      ((List.range k).foldl (indexStep false key sum) w, leftWord ((List.range k).foldl (indexStep false key sum) w) k) := by
  induction k with
  | zero => rfl
  | succ k ih =>
    simp only [List.range_succ, List.foldl_append, List.foldl_cons, List.foldl_nil]
    rw [ih (by omega)]
    have hlength := foldl_indexStep_length false key sum (List.range k) w
    generalize (List.range k).foldl (indexStep false key sum) w = v at hlength ⊢
    dsimp only
    rw [← rightWord_of_lt (by omega), encUpdate_eq key sum (by omega), leftWord_succ (by rw [indexStep_length]; omega)]

theorem encRound_eq (key : KeyWords) (sum : Word) {n : Nat} {w : List Word} (hw : w.length = n + 1) :
    encRound key n sum (w, wordIn w n) =
      (indexRound false key (n + 1) sum w, wordIn (indexRound false key (n + 1) sum w) n) := by
  have hround : indexRound false key (n + 1) sum w =
      indexStep false key sum ((List.range n).foldl (indexStep false key sum) w) n := by
    simp [indexRound, inOrder, List.range_succ]
  rw [hround, encRound, ← leftWord_zero hw, foldl_encUpdate key sum (by omega)]
  have hlength := (foldl_indexStep_length false key sum (List.range n) w).trans hw
  generalize (List.range n).foldl (indexStep false key sum) w = v at hlength ⊢
  dsimp only
  rw [← rightWord_last hlength, encUpdate_eq key sum (by omega)]

/-- Before the step at `k` of a round of R147, `y` is the right neighbour of `w[k]`. -/
theorem foldl_decUpdate (key : KeyWords) (sum : Word) {w : List Word} {k : Nat} (hk : k < w.length) :
    (downFrom k).foldl (fun a p => decUpdate key sum a.1 (wordIn a.1 (p - 1)) a.2 p) (w, rightWord w k) =
      ((downFrom k).foldl (indexStep true key sum) w, rightWord ((downFrom k).foldl (indexStep true key sum) w) 0) := by
  induction k generalizing w with
  | zero => rfl
  | succ k ih =>
    simp only [downFrom_succ, List.foldl_cons, Nat.add_sub_cancel]
    rw [← leftWord_succ (by omega), decUpdate_eq key sum hk, ← rightWord_of_lt (by rwa [indexStep_length]), ih (by rw [indexStep_length]; omega)]

theorem decRound_eq (key : KeyWords) (sum : Word) {n : Nat} {w : List Word} (hw : w.length = n + 1) :
    decRound key n sum (w, wordIn w 0) =
      (indexRound true key (n + 1) sum w, wordIn (indexRound true key (n + 1) sum w) 0) := by
  have hround : indexRound true key (n + 1) sum w =
      indexStep true key sum ((downFrom n).foldl (indexStep true key sum) w) 0 := by
    simp [indexRound, inOrder, reverse_range_succ]
  rw [hround, decRound, ← rightWord_last hw, foldl_decUpdate key sum (by omega)]
  have hlength := (foldl_indexStep_length true key sum (downFrom n) w).trans hw
  generalize (downFrom n).foldl (indexStep true key sum) w = v at hlength ⊢
  dsimp only
  rw [← leftWord_zero hlength, decUpdate_eq key sum (by omega)]

/-- The loop of R146 after `k` rounds runs the rounds `k + 1` to `k + q`. -/
theorem encLoop_eq (key : KeyWords) {n : Nat} (q k : Nat) {w : List Word} (hw : w.length = n + 1) :
    (encLoop key n q (BitVec.ofNat 32 k * DELTA) (w, wordIn w n)).1 =
      (List.range' (k + 1) q).foldl (fun v r => indexRound false key (n + 1) (BitVec.ofNat 32 r * DELTA) v) w := by
  induction q generalizing k w with
  | zero => rfl
  | succ q ih =>
    rw [encLoop, ← ofNat_succ_mul_DELTA, encRound_eq key _ hw, ih (k + 1) ((indexRound_length ..).trans hw), List.range'_succ,
      List.foldl_cons]

/-- The loop of R147 from the sum `q * DELTA` runs the rounds `q` down to 1. -/
theorem decLoop_eq (key : KeyWords) {n q : Nat} (hq : q < 2 ^ 32) {w : List Word} (hw : w.length = n + 1) :
    (decLoop key n q (BitVec.ofNat 32 q * DELTA) (w, wordIn w 0)).1 =
      (downFrom q).foldl (fun v r => indexRound true key (n + 1) (BitVec.ofNat 32 r * DELTA) v) w := by
  induction q generalizing w with
  | zero => rfl
  | succ q ih =>
    rw [decLoop_succ _ _ _ hq, decRound_eq key _ hw, ih (by omega) ((indexRound_length ..).trans hw), downFrom_succ,
      List.foldl_cons]

theorem encRounds_eq_indexRounds (key : KeyWords) {w : List Word} (hw : 2 ≤ w.length) :
    encRounds w key = indexRounds false key w := by
  have hlength : w.length = w.length - 1 + 1 := by omega
  have hrange (q : Nat) : List.range' (0 + 1) q = (List.range q).map Nat.succ := by
    simp [List.range'_eq_map_range, Nat.add_comm]
  have hloop := encLoop_eq key (roundCount w.length) 0 hlength
  rw [← hlength, hrange] at hloop
  rw [encRounds, if_neg (Nat.not_lt.mpr hw), indexRounds_eq]
  exact hloop

theorem decRounds_eq_indexRounds (key : KeyWords) {w : List Word} (hw : 2 ≤ w.length) :
    decRounds w key = indexRounds true key w := by
  have hlength : w.length = w.length - 1 + 1 := by omega
  have hq := roundCount_le hw
  have hloop := decLoop_eq key (q := roundCount w.length) (by omega) hlength
  rw [← hlength, downFrom_eq] at hloop
  rw [decRounds, if_neg (Nat.not_lt.mpr hw), indexRounds_eq]
  exact hloop

/-- Settles O20: in each loop the carried word is the neighbour that the index form reads. -/
theorem transformsEqualTheIndexForm : Obligations.TransformsEqualTheIndexForm := by
  unfold Obligations.TransformsEqualTheIndexForm
  exact fun w key hw => ⟨encRounds_eq_indexRounds key hw, decRounds_eq_indexRounds key hw⟩

theorem decRounds_encRounds (key : KeyWords) {w : List Word} (hw : 2 ≤ w.length) : decRounds (encRounds w key) key = w := by
  rw [decRounds_eq_indexRounds key (by simpa using hw), encRounds_eq_indexRounds key hw]
  exact indexRounds_not_indexRounds false key hw

theorem encRounds_decRounds (key : KeyWords) {w : List Word} (hw : 2 ≤ w.length) : encRounds (decRounds w key) key = w := by
  rw [encRounds_eq_indexRounds key (by simpa using hw), decRounds_eq_indexRounds key hw]
  exact indexRounds_not_indexRounds true key hw

/-- Settles O21: in the index form each step is undone by the opposite step, in the opposite order. -/
theorem transformsAreInverse : Obligations.TransformsAreInverse := by
  unfold Obligations.TransformsAreInverse
  exact fun w key hw => ⟨decRounds_encRounds key hw, encRounds_decRounds key hw⟩

end Sys2Proof.Machine

/-! SUPPORT. ENCR and DECR (41_round_transform.md R145, R148, R149): one command over either transform, behind its two checks. -/

namespace Sys2Proof.Machine

/-- What ENCR and DECR have in common: the checks of WCNT, then the round step with the transform. -/
def mixCommand (rounds : List Word → KeyWords → List Word) (s : State) : Host.Outcome State Fault Refusal :=
  if s.wcnt = 0#32 then .next (s.raise .invalidInput)
  else if s.wcnt.toNat > s.wmax then .next (s.raise .capacity)
  else .next ((s.mixWords rounds).complete .ok)

theorem exec_encr (s : State) : exec .encr s = mixCommand encRounds s := rfl

theorem exec_decr (s : State) : exec .decr s = mixCommand decRounds s := rfl

section
variable {r : List Word → KeyWords → List Word} {s : State}

theorem mixCommand_of_fits (hpos : 1 ≤ s.wcnt.toNat) (hfit : s.wcnt.toNat ≤ s.wmax) :
    mixCommand r s = .next ((s.mixWords r).complete .ok) := by
  have hne : s.wcnt ≠ 0#32 := fun h => Nat.not_succ_le_zero 0 (hpos.trans_eq (congrArg BitVec.toNat h))
  exact (if_neg hne).trans (if_neg (Nat.not_lt.mpr hfit))

/-- One word passes through (R145). -/
theorem State.mixWords_of_one (h : s.wcnt = 1#32) : s.mixWords r = { s with rounds := 0#32 } := if_pos h

theorem State.wcnt_ne_one_of_two_le (h : 2 ≤ s.wcnt.toNat) : s.wcnt ≠ 1#32 := by
  rintro hone
  rw [hone] at h
  exact absurd h (by decide)

/-- The register frame of a round step that runs rounds and completes. -/
theorem State.mixWords_complete_eq (h : 2 ≤ s.wcnt.toNat) : (s.mixWords r).complete .ok =
    { s with mem := (s.mixWords r).mem, rounds := BitVec.ofNat 32 (roundCount s.wcnt.toNat), err := 0#4, done := true,
             busy := false } := by
  ext1 <;> simp [ErrorCode.code, State.wcnt_ne_one_of_two_le h]

/-- The words after a round step that runs rounds. -/
theorem State.words_mixWords (hr : ∀ w k, (r w k).length = w.length) (h : 2 ≤ s.wcnt.toNat) :
    (s.mixWords r).words s.wcnt.toNat = r s.wordArray s.key := by
  have harray := s.wordArray_mixWords r hr
  rwa [if_neg (State.wcnt_ne_one_of_two_le h), State.wordArray, State.mixWords_wcnt] at harray

end

/-- The four cases of R148 and R149, of a command that is `mixCommand` over a transform that keeps the length. -/
theorem exec_mixing {i : Instr} {r : List Word → KeyWords → List Word} (hexec : ∀ s, exec i s = mixCommand r s)
    (hr : ∀ w k, (r w k).length = w.length) (s : State) :
    (s.wcnt = 0#32 → exec i s = .next { s with outlen := 0#32, err := 1#4, done := true, busy := false }) ∧
    (s.wcnt ≠ 0#32 → s.wmax < s.wcnt.toNat →
      exec i s = .next { s with outlen := 0#32, err := 3#4, done := true, busy := false }) ∧
    (s.wcnt = 1#32 → 1 ≤ s.wmax → exec i s = .next { s with rounds := 0#32, err := 0#4, done := true, busy := false }) ∧
    (2 ≤ s.wcnt.toNat → s.wcnt.toNat ≤ s.wmax → ∃ t, exec i s = .next t ∧
      t = { s with mem := t.mem, rounds := BitVec.ofNat 32 (6 + 52 / s.wcnt.toNat), err := 0#4, done := true, busy := false } ∧
      t.words s.wcnt.toNat = r (s.words s.wcnt.toNat) s.key ∧
      (∀ a, ¬ (Buf.wbuf.base ≤ a ∧ a < Buf.wbuf.base + 4 * s.wcnt.toNat) → t.cellAt a = s.cellAt a)) := by
  rw [hexec]
  refine ⟨fun hzero => if_pos hzero, fun hpos hover => (if_neg hpos).trans (if_pos hover), fun hone hfit => ?_, fun htwo hfit => ?_⟩
  · have hcount : s.wcnt.toNat = 1 := congrArg BitVec.toNat hone
    rw [mixCommand_of_fits (by omega) (by omega), State.mixWords_of_one hone]
    rfl
  · exact ⟨(s.mixWords r).complete .ok, mixCommand_of_fits (by omega) hfit, State.mixWords_complete_eq htwo,
      State.words_mixWords hr htwo, fun a ha => s.cellAt_mixWords_of_outside r hr ha⟩

/-- Settles O23: ENCR is the round step with the encrypt transform, behind its checks. -/
theorem encrTransformsWords : Obligations.EncrTransformsWords := by
  unfold Obligations.EncrTransformsWords
  exact ⟨decode_eq_ok_iff.mpr rfl, exec_mixing exec_encr encRounds_length⟩

/-- Settles O24: DECR is the round step with the decrypt transform, behind its checks. -/
theorem decrTransformsWords : Obligations.DecrTransformsWords := by
  unfold Obligations.DecrTransformsWords
  exact ⟨decode_eq_ok_iff.mpr rfl, exec_mixing exec_decr decRounds_length⟩

/-! ### DECR after ENCR (R149, R150) -/

/-- Equal words of WBUF are equal bytes. -/
theorem State.cellAt_eq_of_words_eq {s t : State} {n : Nat} (h : t.words n = s.words n) {a : Nat}
    (ha : Buf.wbuf.base ≤ a ∧ a < Buf.wbuf.base + 4 * n) : t.cellAt a = s.cellAt a := by
  obtain ⟨i, rfl⟩ := Nat.exists_eq_add_of_le ha.1
  have hword : t.wordAt (i / 4) = s.wordAt (i / 4) := by
    rw [← t.words_getD (show i / 4 < n by omega), h, s.words_getD (by omega)]
  have hbyte := congrArg (byteOf · (i % 4)) hword
  simp only [byteOf_wordAt _ _ (Nat.mod_lt i (by decide)), Nat.div_add_mod] at hbyte
  exact hbyte

/-- The round step with the decrypt transform gives back the words that the round step with the encrypt transform found: one
word passes through both. -/
theorem State.wordArray_mixWords_mixWords {s t : State} (hpos : 1 ≤ s.wcnt.toNat) (hkey : t.key = s.key) (hwcnt : t.wcnt = s.wcnt)
    (harray : t.wordArray = (s.mixWords encRounds).wordArray) : (t.mixWords decRounds).wordArray = s.wordArray := by
  rw [State.wordArray_mixWords _ _ decRounds_length, harray, State.wordArray_mixWords _ _ encRounds_length, hwcnt, hkey]
  split
  · rfl
  · next hone =>
    have hne : s.wcnt.toNat ≠ 1 := fun h => hone (BitVec.eq_of_toNat_eq h)
    exact decRounds_encRounds s.key (by rw [State.wordArray_length]; omega)

/-- Settles O25: both commands write the same words, and those are given back. -/
theorem decrAfterEncrRestoresBuffers : Obligations.DecrAfterEncrRestoresBuffers := by
  unfold Obligations.DecrAfterEncrRestoresBuffers
  intro s t u hpos hfit ht hu
  rw [exec_encr, mixCommand_of_fits hpos hfit] at ht
  cases ht
  rw [exec_decr, mixCommand_of_fits (by simpa using hpos) (by simpa using hfit)] at hu
  cases hu
  refine ⟨fun a => ?_, by ext1 <;> simp [ErrorCode.code]⟩
  by_cases ha : Buf.wbuf.base ≤ a ∧ a < Buf.wbuf.base + 4 * s.wcnt.toNat
  · have hwords := State.wordArray_mixWords_mixWords (t := (s.mixWords encRounds).complete .ok) hpos (by simp) (by simp) rfl
    simp only [State.wordArray, State.mixWords_wcnt, State.complete_wcnt] at hwords
    exact State.cellAt_eq_of_words_eq hwords ha
  · rw [State.cellAt_complete, State.cellAt_mixWords_of_outside _ _ decRounds_length (by simpa using ha), State.cellAt_complete,
      State.cellAt_mixWords_of_outside _ _ encRounds_length ha]

end Sys2Proof.Machine

/-! SUPPORT. ENCRYPT and DECRYPT (42_facade.md R170 to R176): one command over either transform. After its two checks come the pack
of the input, the pack of the key and the round step (`State.packMix`), which leave in WBUF a word array that is a function of the
input and the key bytes alone; then the unpack. -/

namespace Sys2Proof.Machine

/-! ### The steps before the unpack -/

/-- The steps of ENCRYPT and of DECRYPT between their checks and the unpack (R170, R172). -/
def State.packMix (l : Bool) (r : List Word → KeyWords → List Word) (s : State) : State :=
  (s.packInput l).packKey.mixWords r

/-- How many words the input packs to. -/
def State.packCount (l : Bool) (s : State) : Nat := ceil4 s.len.toNat + (if l then 1 else 0)

/-- The word array that the steps before the unpack leave in WBUF: one word passes through (R145). -/
def State.mixedInput (l : Bool) (r : List Word → KeyWords → List Word) (s : State) : List Word :=
  if s.packCount l = 1 then packWords s.inputBytes l else r (packWords s.inputBytes l) (keyWords s.keyBytes s.klen.toNat)

section
variable {s : State} {l : Bool} {r : List Word → KeyWords → List Word}

/-- The array that the round step finds has as many words as the input packs to. -/
theorem State.packInput_packKey_wcnt_toNat (s : State) (l : Bool) : (s.packInput l).packKey.wcnt.toNat = s.packCount l :=
  s.packInput_wcnt_toNat l

theorem State.packCount_lt (s : State) (l : Bool) : s.packCount l < 2 ^ 32 :=
  s.packInput_packKey_wcnt_toNat l ▸ BitVec.isLt _

theorem State.packCount_pos (hlen : s.len ≠ 0#32) : 1 ≤ s.packCount l := by
  have hne : s.len.toNat ≠ 0 := fun e => hlen (BitVec.eq_of_toNat_eq e)
  unfold State.packCount ceil4
  omega

theorem State.packMix_wcnt : (s.packMix l r).wcnt = BitVec.ofNat 32 (s.packCount l) := by
  simp [State.packMix, State.packCount]

theorem State.packMix_wcnt_toNat : (s.packMix l r).wcnt.toNat = s.packCount l := by
  rw [State.packMix_wcnt, BitVec.toNat_ofNat, Nat.mod_eq_of_lt (s.packCount_lt l)]

/-- The passthrough test of the round step. -/
theorem State.packInput_wcnt_eq_one_iff : (s.packInput l).packKey.wcnt = 1#32 ↔ s.packCount l = 1 := by
  rw [← BitVec.toNat_inj, State.packInput_packKey_wcnt_toNat]
  rfl

/-- Packing the input does not reach KBUF, so the key is packed from the bytes of the start. -/
theorem State.packInput_packKey_key (hfit : s.packCount l ≤ Config.maxWmax) :
    (s.packInput l).packKey.key = keyWords s.keyBytes s.klen.toNat := by
  have hkbuf : (s.packInput l).keyBytes = s.keyBytes :=
    List.map_congr_left fun i hi => ((State.SameInputs.refl s).packInput hfit).byteAt_kbuf (List.mem_range.mp hi)
  rw [State.packKey_key, hkbuf, State.packInput_klen]

/-- The registers the steps write. -/
theorem State.packMix_eq (hfit : s.packCount l ≤ Config.maxWmax) : s.packMix l r =
    { s with mem := (s.packMix l r).mem, wcnt := BitVec.ofNat 32 (s.packCount l), key := keyWords s.keyBytes s.klen.toNat,
             rounds := BitVec.ofNat 32 (if s.packCount l = 1 then 0 else roundCount (s.packCount l)) } := by
  have hkey := State.packInput_packKey_key hfit
  have hrounds : (s.packMix l r).rounds = BitVec.ofNat 32 (if s.packCount l = 1 then 0 else roundCount (s.packCount l)) := by
    rw [State.packMix, State.mixWords_rounds, State.packInput_packKey_wcnt_toNat]
    exact (if_congr State.packInput_wcnt_eq_one_iff rfl rfl).trans (apply_ite ..).symm
  ext1
  case wcnt => exact State.packMix_wcnt
  case key => exact (State.mixWords_key ..).trans hkey
  case rounds => exact hrounds
  all_goals simp [State.packMix]

/-- The steps write the words of the array and no other byte. -/
theorem State.cellAt_packMix_of_outside (hr : ∀ w k, (r w k).length = w.length) {a : Nat}
    (ha : ¬ (Buf.wbuf.base ≤ a ∧ a < Buf.wbuf.base + 4 * s.packCount l)) : (s.packMix l r).cellAt a = s.cellAt a := by
  have hmix : (s.packMix l r).cellAt a = (s.packInput l).packKey.cellAt a :=
    State.cellAt_mixWords_of_outside _ r hr (by rwa [State.packInput_packKey_wcnt_toNat])
  exact hmix.trans (s.cellAt_packInput_of_outside l ha)

theorem State.wordArray_packMix (hr : ∀ w k, (r w k).length = w.length) (hfit : s.packCount l ≤ Config.maxWmax) :
    (s.packMix l r).wordArray = s.mixedInput l r := by
  have harray : (s.packInput l).packKey.wordArray = packWords s.inputBytes l := s.wordArray_packInput l (s.packCount_lt l)
  rw [State.packMix, State.wordArray_mixWords _ r hr, harray, State.packInput_packKey_key hfit]
  exact if_congr State.packInput_wcnt_eq_one_iff rfl rfl

theorem State.mixedInput_length (hr : ∀ w k, (r w k).length = w.length) : (s.mixedInput l r).length = s.packCount l := by
  unfold State.mixedInput
  split <;> simp [hr, State.packCount]

theorem State.words_packMix (hr : ∀ w k, (r w k).length = w.length) (hfit : s.packCount l ≤ Config.maxWmax) :
    (s.packMix l r).words (s.packCount l) = s.mixedInput l r := by
  rw [← State.wordArray_packMix hr hfit, State.wordArray, State.packMix_wcnt_toNat]

theorem State.wordAt_packMix (hr : ∀ w k, (r w k).length = w.length) (hfit : s.packCount l ≤ Config.maxWmax) {k : Nat}
    (hk : k < s.packCount l) : (s.packMix l r).wordAt k = (s.mixedInput l r).getD k 0#32 := by
  rw [← State.words_packMix hr hfit, State.words_getD _ hk]

/-! ### The unpack -/

/-- OBUF lies above the words of WBUF, so the unpack leaves them. -/
theorem State.words_unpackComplete (s : State) (m : Nat) {n : Nat} (hn : n ≤ Config.maxWmax) :
    (s.unpackComplete m).words n = s.words n := by
  refine List.map_congr_left fun k hk => word_eq_of_bytes fun j hj => ?_
  have hk := List.mem_range.mp hk
  rw [byteOf_wordAt _ _ hj, byteOf_wordAt _ _ hj, State.byteAt, State.cellAt_unpackComplete, if_neg, State.byteAt]
  simp only [Buf.base, Config.maxWmax] at *
  omega

/-- What ENCRYPT and DECRYPT leave when they complete with ERR = 0 after packing `n` words and unpacking `m` bytes of the words `d`
under the key `key` (R170, R172). -/
structure State.Unpacked (s : State) (n m : Nat) (key : KeyWords) (d : List Word) (t : State) : Prop where
  registers : t = { s with
    mem := t.mem, wcnt := BitVec.ofNat 32 n, key := key, rounds := BitVec.ofNat 32 (if n = 1 then 0 else roundCount n),
    outlen := BitVec.ofNat 32 m, err := 0#4, done := true, busy := false }
  words : t.words n = d
  bytes : ∀ i < m, t.byteAt .obuf i = byteOf (d.getD (i / 4) 0#32) (i % 4)
  terminator : t.byteAt .obuf m = 0#8
  frame : ∀ a, ¬ (Buf.wbuf.base ≤ a ∧ a < Buf.wbuf.base + 4 * n) → ¬ (Buf.obuf.base ≤ a ∧ a < Buf.obuf.base + (m + 1)) →
    t.cellAt a = s.cellAt a

theorem State.Unpacked.err {n m : Nat} {key : KeyWords} {d : List Word} {t : State} (h : s.Unpacked n m key d t) : t.err = 0#4 :=
  congrArg State.err h.registers

theorem State.Unpacked.outlen {n m : Nat} {key : KeyWords} {d : List Word} {t : State} (h : s.Unpacked n m key d t) :
    t.outlen = BitVec.ofNat 32 m :=
  congrArg State.outlen h.registers

theorem State.unpacked_packMix (hr : ∀ w k, (r w k).length = w.length) (hfit : s.packCount l ≤ Config.maxWmax) {m : Nat}
    (hm : m ≤ 4 * s.packCount l) :
    s.Unpacked (s.packCount l) m (keyWords s.keyBytes s.klen.toNat) (s.mixedInput l r) ((s.packMix l r).unpackComplete m) where
  registers := ((s.packMix l r).unpackComplete_eq m).trans (by rw [State.packMix_eq hfit])
  words := (State.words_unpackComplete _ m hfit).trans (State.words_packMix hr hfit)
  bytes i hi := by
    rw [State.byteAt_unpackComplete_data _ (by rwa [State.packMix_wcnt_toNat]) hi, State.wordAt_packMix hr hfit (by omega)]
  terminator := State.byteAt_unpackComplete_end _ m
  frame a hw ho := by rw [State.cellAt_unpackComplete, if_neg ho, State.cellAt_packMix_of_outside hr hw]

/-! ### The commands -/

/-- What ENCRYPT and DECRYPT have in common: the checks of LEN, the steps, the unpack. -/
def facadeCommand (l l' : Bool) (r : List Word → KeyWords → List Word) (s : State) : Host.Outcome State Fault Refusal :=
  if s.len = 0#32 then .next (s.raise .invalidInput)
  else if s.packCount l > s.wmax then .next (s.raise .capacity)
  else .next ((s.packMix l r).finishUnpack l')

theorem exec_encrypt (s : State) : exec .encrypt s = facadeCommand true false encRounds s := rfl

theorem exec_decrypt (s : State) : exec .decrypt s = facadeCommand false true decRounds s := rfl

theorem facadeCommand_of_fits {l' : Bool} (hlen : s.len ≠ 0#32) (hfit : s.packCount l ≤ s.wmax) :
    facadeCommand l l' r s = .next ((s.packMix l r).finishUnpack l') :=
  (if_neg hlen).trans (if_neg (Nat.not_lt.mpr hfit))

/-- ENCRYPT past its checks unpacks every byte of its words (R170). -/
theorem exec_encrypt_of_fits (hlen : s.len ≠ 0#32) (hfit : s.packCount true ≤ s.wmax) :
    exec .encrypt s = .next ((s.packMix true encRounds).unpackComplete (4 * s.packCount true)) := by
  rw [exec_encrypt, facadeCommand_of_fits hlen hfit, State.finishUnpack_false, State.packMix_wcnt_toNat]

/-- The length that DECRYPT finds: the last word of the array (R172). -/
def State.embeddedLength (s : State) : Nat := ((s.mixedInput false decRounds).getD (s.packCount false - 1) 0#32).toNat

/-- DECRYPT past its checks unpacks as many bytes as the embedded length says, if the words have them (R172). -/
theorem exec_decrypt_of_fits (hcap : s.capacityInv = true) (hlen : s.len ≠ 0#32) (hfit : s.packCount false ≤ s.wmax) :
    exec .decrypt s = .next (if 4 * s.packCount false < s.embeddedLength then (s.packMix false decRounds).raise .corruptData
      else (s.packMix false decRounds).unpackComplete s.embeddedLength) := by
  have hpos := State.packCount_pos (l := false) hlen
  have hwcnt : (s.packMix false decRounds).wcnt ≠ 0#32 := fun h => by
    rw [← State.packMix_wcnt_toNat (r := decRounds), h] at hpos
    exact absurd hpos (by decide)
  have hlast := State.wordAt_packMix decRounds_length (hfit.trans (State.wmax_le_maxWmax hcap)) (Nat.sub_one_lt_of_lt hpos)
  rw [exec_decrypt, facadeCommand_of_fits hlen hfit, State.finishUnpack_true hwcnt, State.packMix_wcnt_toNat, hlast,
    State.embeddedLength]

theorem exec_decrypt_of_corrupt (hcap : s.capacityInv = true) (hlen : s.len ≠ 0#32) (hfit : s.packCount false ≤ s.wmax)
    (hcorrupt : 4 * s.packCount false < s.embeddedLength) :
    exec .decrypt s = .next ((s.packMix false decRounds).raise .corruptData) := by
  rw [exec_decrypt_of_fits hcap hlen hfit, if_pos hcorrupt]

theorem exec_decrypt_of_bounded (hcap : s.capacityInv = true) (hlen : s.len ≠ 0#32) (hfit : s.packCount false ≤ s.wmax)
    (hbound : s.embeddedLength ≤ 4 * s.packCount false) :
    exec .decrypt s = .next ((s.packMix false decRounds).unpackComplete s.embeddedLength) := by
  rw [exec_decrypt_of_fits hcap hlen hfit, if_neg (Nat.not_lt.mpr hbound)]

end

/-- ENCRYPT always has two or more words, so none passes through. -/
theorem State.two_le_packCount_true {s : State} (hlen : s.len ≠ 0#32) : 2 ≤ s.packCount true :=
  Nat.succ_le_succ (State.packCount_pos (l := false) hlen)

theorem State.mixedInput_true {s : State} (hlen : s.len ≠ 0#32) (r : List Word → KeyWords → List Word) :
    s.mixedInput true r = r (packWords s.inputBytes true) (keyWords s.keyBytes s.klen.toNat) :=
  if_neg (Nat.ne_of_gt (State.two_le_packCount_true hlen))

/-- Settles O26: ENCRYPT is the shared steps with the length word, behind its checks. -/
theorem encryptPacksMixesUnpacks : Obligations.EncryptPacksMixesUnpacks := by
  unfold Obligations.EncryptPacksMixesUnpacks
  refine ⟨decode_eq_ok_iff.mpr rfl, fun s hcap => ⟨fun hzero => if_pos hzero,
    fun hlen hover => (if_neg hlen).trans (if_pos hover), ?_⟩⟩
  rintro hlen hfit n key c rfl rfl rfl
  obtain ⟨hregisters, hwords, hbytes, hterminator, hframe⟩ := State.unpacked_packMix (s := s) (l := true) encRounds_length
    (hfit.trans (State.wmax_le_maxWmax hcap)) le_rfl
  rw [State.mixedInput_true hlen] at hwords hbytes
  rw [if_neg (Nat.ne_of_gt (State.two_le_packCount_true hlen))] at hregisters
  exact ⟨_, exec_encrypt_of_fits hlen hfit, hregisters, hwords, hbytes, hterminator, hframe⟩

/-- Settles O27: DECRYPT is the shared steps without the length word, behind its checks; CORRUPT_DATA comes after them. -/
theorem decryptPacksMixesUnpacks : Obligations.DecryptPacksMixesUnpacks := by
  unfold Obligations.DecryptPacksMixesUnpacks
  refine ⟨decode_eq_ok_iff.mpr rfl, fun s hcap => ⟨fun hzero => if_pos hzero,
    fun hlen hover => (if_neg hlen).trans (if_pos hover), ?_⟩⟩
  rintro hlen hfit n m key d rfl rfl rfl rfl
  have hmax : s.packCount false ≤ Config.maxWmax := hfit.trans (State.wmax_le_maxWmax hcap)
  constructor
  · intro hcorrupt
    exact ⟨_, exec_decrypt_of_corrupt hcap hlen hfit hcorrupt, congrArg (State.raise .corruptData) (State.packMix_eq hmax),
      State.words_packMix decRounds_length hmax, fun a ha => State.cellAt_packMix_of_outside decRounds_length ha⟩
  · intro hbound
    obtain ⟨hregisters, hwords, hbytes, hterminator, hframe⟩ := State.unpacked_packMix (s := s) decRounds_length hmax hbound
    exact ⟨_, exec_decrypt_of_bounded hcap hlen hfit hbound, hregisters, hwords, hbytes, hterminator, hframe⟩

/-! ### The output length (R175) -/

theorem State.outlen_unpackComplete_toNat (s : State) {m : Nat} (hm : m < 2 ^ 32) : (s.unpackComplete m).outlen.toNat = m := by
  rw [State.unpackComplete_eq]
  exact Nat.mod_eq_of_lt hm

/-- Settles O28: the checks of ENCRYPT raise other codes than 0, and past them every byte of the words is unpacked. -/
theorem ciphertextLength : Obligations.CiphertextLength := by
  unfold Obligations.CiphertextLength
  intro s t hcap ht herr
  have hfits : s.len ≠ 0#32 ∧ s.packCount true ≤ s.wmax := by
    rw [exec_encrypt, facadeCommand] at ht
    split at ht
    · cases ht
      simp [ErrorCode.code] at herr
    split at ht
    · cases ht
      simp [ErrorCode.code] at herr
    · next hlen hfit => exact ⟨hlen, Nat.le_of_not_gt hfit⟩
  obtain ⟨hlen, hfit⟩ := hfits
  rw [exec_encrypt_of_fits hlen hfit] at ht
  cases ht
  have hmax := hfit.trans (State.wmax_le_maxWmax hcap)
  rw [State.outlen_unpackComplete_toNat _ (by unfold Config.maxWmax at hmax; omega)]
  have hceil := length_le_four_mul_ceil4 s.len.toNat
  exact ⟨rfl, Nat.mul_mod_right .., by simp only [State.packCount, if_true]; omega⟩

/-! ### DECRYPT of ENCRYPT's output (R174) -/

/-- Packing an input whose bytes are those of some words gives the words back. -/
theorem State.packWords_inputBytes_of_bytes {u : State} {w : List Word} (hlen : u.len.toNat = 4 * w.length)
    (hbytes : ∀ i < 4 * w.length, u.byteAt .ibuf i = byteOf (w.getD (i / 4) 0#32) (i % 4)) : packWords u.inputBytes false = w := by
  have hlength : (packWords u.inputBytes false).length = w.length := by
    simp only [packWords_length, State.inputBytes_length, hlen, ceil4, Bool.false_eq_true, if_false]
    omega
  refine List.ext_getElem hlength fun k hk hk' => word_eq_of_bytes fun j hj => ?_
  have hi : 4 * k + j < 4 * w.length := by omega
  have hbyte := hbytes _ hi
  rw [Nat.mul_add_div (by decide), Nat.mul_add_mod, Nat.div_eq_of_lt hj, Nat.mod_eq_of_lt hj, Nat.add_zero,
    List.getD_eq_getElem _ _ hk'] at hbyte
  rw [← hbyte, ← List.getD_eq_getElem _ 0#32 hk, packWords_false_getD, byteOf_packWord _ _ hj, State.inputBytes,
    State.bytes_getD _ _ (by omega)]

/-- The transforms are inverse, so DECRYPT's array for ENCRYPT's words is the packed input of ENCRYPT. -/
theorem State.mixedInput_decRounds {s u : State} (hlen : s.len ≠ 0#32) (hcount : u.packCount false = s.packCount true)
    (hkey : keyWords u.keyBytes u.klen.toNat = keyWords s.keyBytes s.klen.toNat)
    (hwords : packWords u.inputBytes false = s.mixedInput true encRounds) :
    u.mixedInput false decRounds = packWords s.inputBytes true := by
  have htwo := State.two_le_packCount_true hlen
  rw [State.mixedInput, if_neg (by omega), hwords, hkey, State.mixedInput_true hlen]
  exact decRounds_encRounds _ (by simpa [State.packCount] using htwo)

/-- DECRYPT whose array is a packed input with its length word gives the packed bytes. -/
theorem exec_decrypt_of_packed {u : State} {src : List Byte} (hcap : u.capacityInv = true) (hlen : u.len ≠ 0#32)
    (hfit : u.packCount false ≤ u.wmax) (harray : u.mixedInput false decRounds = packWords src true) :
    ∃ v, exec .decrypt u = .next v ∧ v.err = 0#4 ∧ v.outlen = BitVec.ofNat 32 src.length ∧
      ∀ i < src.length, v.byteAt .obuf i = src.getD i 0#8 := by
  have hmax := hfit.trans (State.wmax_le_maxWmax hcap)
  have hcount : u.packCount false = ceil4 src.length + 1 := by
    rw [← State.mixedInput_length decRounds_length, harray, packWords_length, if_pos rfl]
  have hceil := length_le_four_mul_ceil4 src.length
  have hembedded : u.embeddedLength = src.length := by
    rw [State.embeddedLength, harray, hcount, Nat.add_sub_cancel, packWords_getD_length]
    exact Nat.mod_eq_of_lt (by unfold Config.maxWmax at hmax; omega)
  have hbound : u.embeddedLength ≤ 4 * u.packCount false := by omega
  have hplain := State.unpacked_packMix decRounds_length hmax hbound
  refine ⟨_, exec_decrypt_of_bounded hcap hlen hfit hbound, hplain.err, hplain.outlen.trans (by rw [hembedded]), fun i hi => ?_⟩
  rw [hplain.bytes i (by omega), harray, byteOf_packWords _ _ (by omega)]

/-- Settles O29: DECRYPT's array is the packed input of ENCRYPT. -/
theorem decryptInvertsEncrypt : Obligations.DecryptInvertsEncrypt := by
  unfold Obligations.DecryptInvertsEncrypt
  intro s t u hcap hpos hle ht hwmax hulen huklen hibuf hkbuf
  obtain ⟨hmin, hmax⟩ := (wmaxOk_iff _).mp hcap
  have hlen : s.len ≠ 0#32 := fun h => absurd (h ▸ hpos) (by decide)
  have hfit : s.packCount true ≤ s.wmax := by
    simp only [State.packCount, ceil4, if_true]
    omega
  obtain rfl := Host.Outcome.next.inj ((exec_encrypt_of_fits hlen hfit).symm.trans ht)
  obtain ⟨-, -, hcipher, -, -⟩ := State.unpacked_packMix (s := s) (l := true) encRounds_length (hfit.trans hmax) le_rfl
  rw [State.outlen_unpackComplete_toNat _ (by omega)] at hibuf
  have hlength := State.mixedInput_length (s := s) (l := true) encRounds_length
  have hulen_toNat : u.len.toNat = 4 * s.packCount true := by
    rw [hulen, State.outlen_unpackComplete_toNat _ (by omega)]
  have hcount : u.packCount false = s.packCount true := by
    simp only [State.packCount.eq_def false, ceil4, Bool.false_eq_true, if_false]
    omega
  have hwords : packWords u.inputBytes false = s.mixedInput true encRounds :=
    State.packWords_inputBytes_of_bytes (hlength ▸ hulen_toNat) fun i hi =>
      (hibuf i (hlength ▸ hi)).trans (hcipher i (hlength ▸ hi))
  have hkey : u.keyBytes = s.keyBytes := List.map_congr_left fun i hi => hkbuf i (List.mem_range.mp hi)
  have harray := State.mixedInput_decRounds hlen hcount (by rw [hkey, huklen]) hwords
  have hulen_ne : u.len ≠ 0#32 := fun h => by
    have := State.two_le_packCount_true hlen
    rw [h, BitVec.toNat_ofNat, Nat.zero_mod] at hulen_toNat
    omega
  obtain ⟨v, hv, herr, houtlen, hbytes⟩ := exec_decrypt_of_packed (by rwa [State.capacityInv, hwmax]) hulen_ne
    (by rwa [hcount, hwmax]) harray
  rw [State.inputBytes_length] at houtlen hbytes
  exact ⟨v, hv, herr, houtlen.trans (by simp), fun i hi => (hbytes i hi).trans (s.bytes_getD .ibuf hi)⟩

/-! ### What the results depend on (R176) -/

/-- `t` holds the array `d` of `n` words, mixed under the key `key`: what the steps before the unpack leave, and the unpack keeps. -/
structure State.Mixed (n : Nat) (key : KeyWords) (d : List Word) (t : State) : Prop where
  wcnt : t.wcnt = BitVec.ofNat 32 n
  key : t.key = key
  rounds : t.rounds = BitVec.ofNat 32 (if n = 1 then 0 else roundCount n)
  words : t.words n = d

theorem State.Unpacked.mixed {s t : State} {n m : Nat} {key : KeyWords} {d : List Word} (h : s.Unpacked n m key d t) :
    t.Mixed n key d :=
  ⟨congrArg State.wcnt h.registers, congrArg State.key h.registers, congrArg State.rounds h.registers, h.words⟩

theorem State.mixed_packMix {s : State} {l : Bool} {r : List Word → KeyWords → List Word} (hr : ∀ w k, (r w k).length = w.length)
    (hfit : s.packCount l ≤ Config.maxWmax) :
    (s.packMix l r).Mixed (s.packCount l) (keyWords s.keyBytes s.klen.toNat) (s.mixedInput l r) :=
  ⟨congrArg State.wcnt (State.packMix_eq hfit), congrArg State.key (State.packMix_eq hfit),
    congrArg State.rounds (State.packMix_eq hfit), State.words_packMix hr hfit⟩

/-- The array is read word by word below WCNT. -/
theorem State.Mixed.wordAt {t : State} {n : Nat} {key : KeyWords} {d : List Word} (h : t.Mixed n key d) {k : Nat}
    (hk : k < t.wcnt.toNat) : t.wordAt k = d.getD k 0#32 := by
  rw [h.wcnt, BitVec.toNat_ofNat] at hk
  rw [← h.words, t.words_getD (hk.trans_le (Nat.mod_le ..))]

/-- The results that R176 speaks of are the same in `t` and in `t'`. -/
structure State.SameResults (t t' : State) : Prop where
  err : t'.err = t.err
  outlen : t'.outlen = t.outlen
  output : t.err = 0#4 → ∀ j ≤ t.outlen.toNat, t'.byteAt .obuf j = t.byteAt .obuf j
  steps : t.err = 0#4 ∨ t.err = 2#4 →
    t'.wcnt = t.wcnt ∧ t'.key = t.key ∧ t'.rounds = t.rounds ∧ ∀ k < t.wcnt.toNat, t'.wordAt k = t.wordAt k

section
variable {t t' : State} {n m : Nat} {key : KeyWords} {d : List Word}

theorem State.Mixed.steps_eq (h : t.Mixed n key d) (h' : t'.Mixed n key d) :
    t'.wcnt = t.wcnt ∧ t'.key = t.key ∧ t'.rounds = t.rounds ∧ ∀ k < t.wcnt.toNat, t'.wordAt k = t.wordAt k := by
  have hwcnt : t'.wcnt = t.wcnt := h'.wcnt.trans h.wcnt.symm
  exact ⟨hwcnt, h'.key.trans h.key.symm, h'.rounds.trans h.rounds.symm,
    fun k hk => (h'.wordAt (hwcnt ▸ hk)).trans (h.wordAt hk).symm⟩

theorem State.Mixed.raise (h : t.Mixed n key d) (e : ErrorCode) : (t.raise e).Mixed n key d := ⟨h.wcnt, h.key, h.rounds, h.words⟩

/-- CORRUPT_DATA comes after the steps. -/
theorem State.Mixed.raise_corrupt (h : t.Mixed n key d) (h' : t'.Mixed n key d) :
    (t.raise .corruptData).SameResults (t'.raise .corruptData) where
  err := rfl
  outlen := rfl
  output hok := absurd hok (by simp [ErrorCode.code])
  steps _ := (h.raise _).steps_eq (h'.raise _)

theorem State.Unpacked.sameResults {s s' : State} (h : s.Unpacked n m key d t) (h' : s'.Unpacked n m key d t') : t.SameResults t' where
  err := h'.err.trans h.err.symm
  outlen := h'.outlen.trans h.outlen.symm
  output _ j hj := by
    rw [h.outlen, BitVec.toNat_ofNat] at hj
    rcases (hj.trans (Nat.mod_le ..)).lt_or_eq with hlt | rfl
    · rw [h'.bytes j hlt, h.bytes j hlt]
    · rw [h'.terminator, h.terminator]
  steps _ := h.mixed.steps_eq h'.mixed

/-- The checks of LEN come before the steps, so nothing but ERR and OUTLEN is a result. -/
theorem State.sameResults_raise (s s' : State) {e : ErrorCode} (hok : e.code ≠ 0#4) (hcorrupt : e.code ≠ 2#4) :
    (s.raise e).SameResults (s'.raise e) where
  err := rfl
  outlen := rfl
  output h := absurd h hok
  steps h := absurd h (not_or.mpr ⟨hok, hcorrupt⟩)

end

/-- `s` and `s'` agree on what ENCRYPT and DECRYPT read: the capacity, LEN, the input bytes, and the key bytes as `keyWords` takes
them. -/
structure State.SameFacadeInputs (s s' : State) : Prop where
  wmax : s'.wmax = s.wmax
  len : s'.len = s.len
  input : s'.inputBytes = s.inputBytes
  key : keyWords s'.keyBytes s'.klen.toNat = keyWords s.keyBytes s.klen.toNat

/-- The first KLEN of KBUF's bytes are all that `keyWords` reads (R111). -/
theorem State.keyWords_congr {s s' : State} {klen : Nat} (hle : klen ≤ 16)
    (hkbuf : ∀ j < klen, s'.byteAt .kbuf j = s.byteAt .kbuf j) : keyWords s'.keyBytes klen = keyWords s.keyBytes klen := by
  have htake : s'.keyBytes.take klen = s.keyBytes.take klen := by
    simp only [State.keyBytes, State.bytes, ← List.map_take, List.take_range, Nat.min_eq_left hle]
    exact List.map_congr_left fun j hj => hkbuf j (List.mem_range.mp hj)
  simp only [keyWords, htake]

namespace State.SameFacadeInputs

variable {s s' : State}

theorem packCount_eq (h : s.SameFacadeInputs s') (l : Bool) : s'.packCount l = s.packCount l := by
  rw [State.packCount, State.packCount, h.len]

theorem mixedInput_eq (h : s.SameFacadeInputs s') (l : Bool) (r : List Word → KeyWords → List Word) :
    s'.mixedInput l r = s.mixedInput l r := by
  rw [State.mixedInput, State.mixedInput, h.packCount_eq, h.input, h.key]

theorem embeddedLength_eq (h : s.SameFacadeInputs s') : s'.embeddedLength = s.embeddedLength := by
  rw [State.embeddedLength, State.embeddedLength, h.mixedInput_eq, h.packCount_eq]

/-- From agreeing inputs the unpack of as many bytes gives the same results. -/
theorem unpackComplete (h : s.SameFacadeInputs s') {l : Bool} {r : List Word → KeyWords → List Word}
    (hr : ∀ w k, (r w k).length = w.length) (hfit : s.packCount l ≤ Config.maxWmax) {m : Nat} (hm : m ≤ 4 * s.packCount l) :
    ((s.packMix l r).unpackComplete m).SameResults ((s'.packMix l r).unpackComplete m) := by
  have hs' := State.unpacked_packMix (s := s') (m := m) hr (by rwa [h.packCount_eq]) (by rwa [h.packCount_eq])
  rw [h.packCount_eq, h.key, h.mixedInput_eq] at hs'
  exact (State.unpacked_packMix hr hfit hm).sameResults hs'

theorem raise_corrupt (h : s.SameFacadeInputs s') {l : Bool} {r : List Word → KeyWords → List Word}
    (hr : ∀ w k, (r w k).length = w.length) (hfit : s.packCount l ≤ Config.maxWmax) :
    ((s.packMix l r).raise .corruptData).SameResults ((s'.packMix l r).raise .corruptData) := by
  have hs' := State.mixed_packMix (s := s') hr (by rwa [h.packCount_eq])
  rw [h.packCount_eq, h.key, h.mixedInput_eq] at hs'
  exact (State.mixed_packMix hr hfit).raise_corrupt hs'

theorem len_ne (h : s.SameFacadeInputs s') (hlen : s.len ≠ 0#32) : s'.len ≠ 0#32 := by rwa [h.len]

theorem packCount_le (h : s.SameFacadeInputs s') {l : Bool} (hfit : s.packCount l ≤ s.wmax) : s'.packCount l ≤ s'.wmax := by
  rwa [h.packCount_eq, h.wmax]

/-- The checks of LEN decide alike from agreeing inputs, so what is left to compare are the runs past them. -/
theorem facadeCommand_sameResults (h : s.SameFacadeInputs s') {l l' : Bool} {r : List Word → KeyWords → List Word}
    (hfits : s.len ≠ 0#32 → s.packCount l ≤ s.wmax →
      ∃ t t', facadeCommand l l' r s = .next t ∧ facadeCommand l l' r s' = .next t' ∧ t.SameResults t') :
    ∃ t t', facadeCommand l l' r s = .next t ∧ facadeCommand l l' r s' = .next t' ∧ t.SameResults t' := by
  by_cases hlen : s.len = 0#32
  · exact ⟨_, _, if_pos hlen, if_pos (h.len.trans hlen), State.sameResults_raise s s' (by decide) (by decide)⟩
  by_cases hover : s.packCount l > s.wmax
  · have hover' : s'.packCount l > s'.wmax := by rwa [h.packCount_eq, h.wmax]
    exact ⟨_, _, (if_neg hlen).trans (if_pos hover), (if_neg (h.len_ne hlen)).trans (if_pos hover'),
      State.sameResults_raise s s' (by decide) (by decide)⟩
  · exact hfits hlen (Nat.le_of_not_gt hover)

theorem exec_encrypt_sameResults (h : s.SameFacadeInputs s') (hcap : s.capacityInv = true) :
    ∃ t t', exec .encrypt s = .next t ∧ exec .encrypt s' = .next t' ∧ t.SameResults t' :=
  h.facadeCommand_sameResults (l := true) (l' := false) (r := encRounds) fun hlen hfit => by
    have hexec' := exec_encrypt_of_fits (h.len_ne hlen) (h.packCount_le hfit)
    rw [h.packCount_eq] at hexec'
    exact ⟨_, _, exec_encrypt_of_fits hlen hfit, hexec',
      h.unpackComplete encRounds_length (hfit.trans (State.wmax_le_maxWmax hcap)) le_rfl⟩

theorem exec_decrypt_sameResults (h : s.SameFacadeInputs s') (hcap : s.capacityInv = true) :
    ∃ t t', exec .decrypt s = .next t ∧ exec .decrypt s' = .next t' ∧ t.SameResults t' :=
  h.facadeCommand_sameResults (l := false) (l' := true) (r := decRounds) fun hlen hfit => by
    have hmax := hfit.trans (State.wmax_le_maxWmax hcap)
    have hexec := exec_decrypt_of_fits hcap hlen hfit
    have hexec' := exec_decrypt_of_fits (s := s') (by rwa [State.capacityInv, h.wmax]) (h.len_ne hlen) (h.packCount_le hfit)
    rw [h.packCount_eq, h.embeddedLength_eq] at hexec'
    refine ⟨_, _, hexec, hexec', ?_⟩
    split
    · exact h.raise_corrupt decRounds_length hmax
    · next hbound => exact h.unpackComplete decRounds_length hmax (Nat.le_of_not_gt hbound)

end State.SameFacadeInputs

/-- Settles O30: the checks read LEN and the capacity, the steps read the input bytes and the first KLEN key bytes, and the unpack
reads the array that the steps left. -/
theorem facadeDependsOnlyOnItsInputs : Obligations.FacadeDependsOnlyOnItsInputs := by
  unfold Obligations.FacadeDependsOnlyOnItsInputs
  intro i s s' hi hcap hwmax hlen hklen hle hibuf hkbuf
  have hinput : s'.inputBytes = s.inputBytes := by
    rw [State.inputBytes, State.inputBytes, hlen]
    exact List.map_congr_left fun j hj => hibuf j (List.mem_range.mp hj)
  have hsame : s.SameFacadeInputs s' := ⟨hwmax, hlen, hinput, by rw [hklen]; exact State.keyWords_congr hle hkbuf⟩
  have hexec : ∃ t t', exec i s = .next t ∧ exec i s' = .next t' ∧ t.SameResults t' := by
    rcases hi with rfl | rfl
    · exact hsame.exec_encrypt_sameResults hcap
    · exact hsame.exec_decrypt_sameResults hcap
  obtain ⟨t, t', ht, ht', herr, houtlen, houtput, hsteps⟩ := hexec
  exact ⟨t, t', ht, ht', herr, houtlen, houtput, hsteps⟩

end Sys2Proof.Machine

/-! SUPPORT. NOP and SRST (43_control.md R190, R191): each is one shared operation, the completion or the reset of the registers. -/

namespace Sys2Proof.Machine

/-! ### NOP (R190) -/

/-- Settles O8: NOP is the completion with code 0, which writes ERR, DONE and BUSY only. -/
theorem nopOnlyCompletes : Obligations.NopOnlyCompletes := by
  unfold Obligations.NopOnlyCompletes
  have hexec (s : State) : exec .nop s = .next (s.complete .ok) := rfl
  exact ⟨decode_eq_ok_iff.mpr rfl, hexec⟩

/-! ### SRST (R191) -/

/-- SRST has no `.L` form (R93, R94). -/
theorem decode_srst_lengthForm : decode 0x0000001F#32 = .error .noLengthForm := by decide

/-- The reset clears DONE and IE, either of which alone keeps the interrupt down (R213). -/
@[simp] theorem State.resetRegs_irq (s : State) : s.resetRegs.irq = false := by
  rw [State.irq, State.resetRegs_done, Bool.false_and]

/-- Settles O9: SRST is the reset of the registers, which names no buffer and clears DONE. -/
theorem srstResetsRegistersAndKeepsBuffers : Obligations.SrstResetsRegistersAndKeepsBuffers := by
  unfold Obligations.SrstResetsRegistersAndKeepsBuffers
  have hexec (s : State) : exec .srst s = .next s.resetRegs := rfl
  exact ⟨decode_eq_ok_iff.mpr rfl, ⟨_, decode_srst_lengthForm⟩, fun s => ⟨s.resetRegs, hexec s, s.resetRegs_irq, rfl⟩⟩

end Sys2Proof.Machine

/-! SUPPORT. The engine's step (60_exceptions.md R205, R210 to R213): whose move it is decides what a step does, and every command
but SRST completes. -/

namespace Sys2Proof.Machine

/-! ### The engine's move (R205, R211, R212) -/

theorem step_of_mover_engine {s : State} (h : s.mover = some .engine) : step s = engineMove s.nextTurn := by
  simp [step, h]

theorem engineMove_of_decode {s : State} {i : Instr} (h : decode s.cmdLatch = .ok i) : engineMove s = exec i s := by
  rw [engineMove, State.fetch, h]

/-- A word that decodes to no command is completed by `raise` (R205). -/
theorem engineMove_of_illegal {s : State} (h : ∀ i, decode s.cmdLatch ≠ .ok i) : engineMove s = .next (s.raise .illegalCmd) := by
  rcases engineMove_cases s with ⟨i, hi, -⟩ | ⟨-, -, heq⟩
  · exact absurd hi (h i)
  · exact heq

/-- Settles O4: the move is the engine's, and the turn used up is no part of CMDLATCH. -/
theorem engineStepRunsDecodedCommand : Obligations.EngineStepRunsDecodedCommand := by
  unfold Obligations.EngineStepRunsDecodedCommand
  intro s i hbusy hreset hturns hdecode
  rw [step_of_mover_engine (State.mover_engine hbusy hreset hturns)]
  exact engineMove_of_decode (s := s.nextTurn) hdecode

/-- `withFetchWord` with a command's word is the issue of that word (R211), out of reset and with the engine's turn next (log 10). -/
theorem State.withFetchWord_encode (s : State) (i : Instr) : s.withFetchWord 32 (encode i).toNat =
    { s.issue (encode i) with inReset := false, turns := .engine :: s.turns } := by
  have hword : BitVec.ofNat 32 ((encode i).toNat % 2 ^ 32) = encode i := by
    rw [Nat.mod_eq_of_lt (encode i).isLt, BitVec.ofNat_toNat, BitVec.setWidth_eq]
  rw [State.withFetchWord, hword]

/-- Settles O6: the state built is one in which the engine moves, and its word decodes to the command. -/
theorem withFetchWordRunsTheCommand : Obligations.WithFetchWordRunsTheCommand := by
  unfold Obligations.WithFetchWordRunsTheCommand
  intro s i
  rw [State.withFetchWord_encode]
  exact engineStepRunsDecodedCommand _ i rfl rfl (Or.inr rfl) (decode_eq_ok_iff.mpr rfl)

/-- CMDLATCH cannot be read (R25, R205): no register's read value depends on it. -/
theorem State.readReg_cmdLatch (s : State) (v : Word) (r : Reg) : ({ s with cmdLatch := v } : State).readReg r = s.readReg r := by
  cases r <;> rfl

theorem State.readBytes_cmdLatch (s : State) (v : Word) (off : Nat) (size : AccessSize) :
    ({ s with cmdLatch := v } : State).readBytes off size = s.readBytes off size := by
  cases size <;> rfl

theorem State.memRead_cmdLatch (s : State) (v : Word) (off : Nat) (size : AccessSize) :
    ({ s with cmdLatch := v } : State).memRead off size = s.memRead off size := by
  simp only [State.memRead, State.readReg_cmdLatch, State.readBytes_cmdLatch]

/-- Settles O5: a word outside R93's map decodes to no command, so the engine's move is `raise`. -/
theorem illegalWordCompletesWithIllegalCmd : Obligations.IllegalWordCompletesWithIllegalCmd := by
  unfold Obligations.IllegalWordCompletesWithIllegalCmd
  refine ⟨fun s hm hword => ?_, State.memRead_cmdLatch⟩
  have hillegal (i : Instr) : decode s.cmdLatch ≠ .ok i := fun hi =>
    hword (List.mem_map_of_mem (f := Prod.fst) ((legalWordsAreTheElevenOfTheMap s.cmdLatch i).mp hi))
  rw [step_of_mover_engine hm]
  exact engineMove_of_illegal (s := s.nextTurn) hillegal

/-! ### Completion (R208, R210, R213) -/

/-- An unpack completes by R210, with an error or without, and touches neither IE nor CMDLATCH. -/
theorem State.finishUnpack_completes (s : State) (l : Bool) :
    (s.finishUnpack l).done = true ∧ (s.finishUnpack l).ie = s.ie ∧ (s.finishUnpack l).cmdLatch = s.cmdLatch ∧
    ((s.finishUnpack l).err ≠ 0#4 → (s.finishUnpack l).outlen = 0#32) := by
  rcases s.finishUnpack_cases l with ⟨-, -, heq⟩ | ⟨m, -, -, heq⟩ <;> rw [heq]
  · exact ⟨rfl, rfl, rfl, fun _ => rfl⟩
  · exact ⟨rfl, by simp, by simp, fun herr => absurd rfl herr⟩

/-- Every command but SRST completes by R210, and leaves OUTLEN = 0 when it failed (R208). -/
theorem CommandEffect.completes {s t : State} (h : CommandEffect s t) :
    t.done = true ∧ t.ie = s.ie ∧ t.cmdLatch = s.cmdLatch ∧ (t.err ≠ 0#4 → t.outlen = 0#32) := by
  cases h with
  | error e => exact ⟨rfl, rfl, rfl, fun _ => rfl⟩
  | nothing => exact ⟨rfl, rfl, rfl, fun herr => absurd rfl herr⟩
  | packed l hfit => exact ⟨rfl, by simp, by simp, fun herr => absurd rfl herr⟩
  | keyPacked => exact ⟨rfl, rfl, rfl, fun herr => absurd rfl herr⟩
  | unpacked l hfit => exact s.finishUnpack_completes l
  | mixed hr hpos hfit => exact ⟨rfl, by simp, by simp, fun herr => absurd rfl herr⟩
  | composed l l' hr hpos hfit => simpa using State.finishUnpack_completes (((s.packInput l).packKey).mixWords _) l'

/-- Settles O7: SRST clears DONE and ERR, and every other command completes. -/
theorem everyCommandCompletes : Obligations.EveryCommandCompletes := by
  unfold Obligations.EveryCommandCompletes
  intro i s
  obtain ⟨t, ht, -, -, -, -, -, -, -, hbusy⟩ := exec_frame i s
  refine ⟨t, ht, hbusy, ?_⟩
  by_cases hi : i = .srst
  · subst hi
    cases ht
    exact ⟨by simp, fun herr => absurd rfl herr⟩
  · obtain ⟨hdone, -, -, houtlen⟩ := (exec_commandEffect hi ht).completes
    exact ⟨iff_of_true hdone hi, houtlen⟩

/-- Settles O50: a completion sets DONE and leaves IE, the reset clears both, and each of the two writes clears one of them. -/
theorem irqFollowsDoneAndEnable : Obligations.IrqFollowsDoneAndEnable := by
  unfold Obligations.IrqFollowsDoneAndEnable
  refine ⟨fun s => Bool.and_eq_true_iff, fun i s t ht => ⟨fun hi => ?_, ?_⟩, fun s t v ht hv => ?_, fun s t v ht hv => ?_⟩
  · obtain ⟨hdone, hie, -⟩ := (exec_commandEffect hi ht).completes
    rw [State.irq, hdone, hie, Bool.true_and]
  · rintro rfl
    cases ht
    exact s.resetRegs_irq
  · cases (s.memWrite_of_regAt v .status rfl).symm.trans ht
    rw [State.irq, s.writeReg_status, hv]
    rfl
  · cases (s.memWrite_of_regAt v .irqen rfl).symm.trans ht
    have hie : (s.writeReg v .irqen).ie = false := hv
    exact ⟨by rw [State.irq, hie, Bool.and_false], rfl⟩

/-! ### Idle, issue and completion over the schedule (R211, R212, R222) -/

/-- Settles O59: no agent can move, so the step only uses up its turn. -/
theorem idleStepChangesNothing : Obligations.IdleStepChangesNothing := by
  unfold Obligations.IdleStepChangesNothing
  intro s hbusy hhost hpins
  rcases step_cases s with ⟨hm, -⟩ | ⟨hm, -⟩ | ⟨hm, -⟩ | ⟨-, heq⟩
  · exact absurd (State.mover_canMove hm) (by simp [State.canMove, State.engineCanMove, hbusy])
  · exact absurd (State.mover_canMove hm) (by simp [State.canMove, State.hostCanMove, hhost])
  · exact absurd (State.mover_canMove hm) (by simp [State.canMove, State.platformCanMove, hpins])
  · exact heq

/-- The engine's move leaves CMDLATCH, unless it runs SRST, which clears it (R191). -/
theorem engineMove_cmdLatch {s t : State} (ht : engineMove s = .next t) : t.cmdLatch = s.cmdLatch ∨ t.cmdLatch = 0#32 := by
  rcases engineMove_cases s with ⟨i, -, heq⟩ | ⟨e, -, heq⟩ <;> rw [heq] at ht
  · by_cases hi : i = .srst
    · subst hi
      cases ht
      exact Or.inr rfl
    · obtain ⟨-, -, hlatch, -⟩ := (exec_commandEffect hi ht).completes
      exact Or.inl hlatch
  · cases ht
    exact Or.inl rfl

/-- While a command is in flight the host can move by a STATUS read only (R70, R99), which is no bus error and leaves the command in
flight. -/
theorem State.hostMove_of_busy {s : State} (hbusy : s.busy = true) (hc : s.hostCanMove = true) :
    ∃ t, s.hostMove = .next t ∧ t.busy = true ∧ t.inReset = s.inReset ∧ t.pins = s.pins ∧ t.turns = s.turns := by
  cases hhost : s.host with
  | nil => simp [State.hostCanMove, hhost] at hc
  | cons op rest =>
    obtain ⟨-, hread⟩ := (State.hostCanMove_iff_of_cons hhost).mp hc
    rcases HostOp.eq_of_isStatusRead (hread.resolve_left (by simp [hbusy])) with rfl | rfl
    · exact ⟨_, State.hostMove_of_memRead hhost (s.memRead_of_regAt .status rfl), hbusy, rfl, rfl, rfl⟩
    · have hbit : (s.readReg .status).getLsbD 0 = true := (s.statusWord_getLsbD 0).trans hbusy
      exact ⟨s, by simp [State.hostMove, hhost, hbit], hbusy, rfl, rfl, rfl⟩

/-- Settles O43: the port's write to CMD is the issue; while BUSY = 1 the write is held, and a step is then the engine's or
nobody's. -/
theorem cmdWriteIssues : Obligations.CmdWriteIssues := by
  unfold Obligations.CmdWriteIssues
  intro s v rest hhost
  refine ⟨fun _ hm => ?_, fun hbusy hplatform => ?_⟩
  · obtain ⟨-, hwrite⟩ := legalHostAccessIsPerformed s 0x008#18 .word rest hm
    exact hwrite v (s.issue v) hhost (s.memWrite_of_regAt v .cmd rfl)
  · obtain ⟨t, ht, hheld, -⟩ := accessesAreHeldWhileBusy s _ rest hbusy hhost (by simp) (by simp)
    refine ⟨t, ht, hheld, ?_⟩
    rcases step_cases s with ⟨-, heq⟩ | ⟨hm, -⟩ | ⟨hm, -⟩ | ⟨-, heq⟩
    · exact engineMove_cmdLatch (s := s.nextTurn) (heq.symm.trans ht)
    · obtain ⟨-, hfree⟩ := (State.hostCanMove_iff_of_cons hhost).mp (State.mover_canMove hm)
      simp [hbusy, HostOp.isStatusRead] at hfree
    · exact absurd hm hplatform
    · cases heq.symm.trans ht
      exact Or.inl rfl

theorem run_succ {s t : State} (h : step s = .next t) (k : Nat) : core.run (k + 1) s = core.run k t := by
  simp only [Host.Core.run, show core.step s = .next t from h]

/-- A step with a command in flight, out of reset and with no reset to come, completes the command, or is the host's and uses up a
turn of the schedule. -/
theorem step_of_flight {s : State} (hbusy : s.busy = true) (hreset : s.inReset = false) (hpins : s.pins = []) :
    ∃ t, step s = .next t ∧ (t.busy = false ∨
      s.turns ≠ [] ∧ t.busy = true ∧ t.inReset = false ∧ t.pins = [] ∧ t.turns = s.turns.tail) := by
  have hengine : s.canMove .engine = true := by simp [State.canMove, State.engineCanMove, hbusy, hreset]
  rcases step_cases s with ⟨-, heq⟩ | ⟨hm, heq⟩ | ⟨hm, -⟩ | ⟨hm, -⟩
  · obtain ⟨t, ht, -, -, -, -, -, -, -, hidle⟩ := engineMove_frame s.nextTurn
    exact ⟨t, heq.trans ht, Or.inl hidle⟩
  · obtain ⟨t, ht, hbusyt, hresett, hpinst, hturns⟩ :=
      State.hostMove_of_busy (s := s.nextTurn) hbusy (State.mover_canMove hm)
    have hne : s.turns ≠ [] := fun hnil => by
      simp [State.mover_engine hbusy hreset (Or.inl hnil)] at hm
    exact ⟨t, heq.trans ht, Or.inr ⟨hne, hbusyt, hresett.trans hreset, hpinst.trans hpins, hturns⟩⟩
  · exact absurd (State.mover_canMove hm) (by simp [State.canMove, State.platformCanMove, hpins])
  · exact absurd hengine (by simp [State.mover_none hm])

/-- Settles O48: by induction on the schedule, which the host's moves use up. -/
theorem issuedCommandCompletes : Obligations.IssuedCommandCompletes := by
  unfold Obligations.IssuedCommandCompletes
  intro s hbusy hreset hpins
  induction hturns : s.turns generalizing s with
  | nil =>
    obtain ⟨t, ht, hidle | ⟨hne, -⟩⟩ := step_of_flight hbusy hreset hpins
    · exact ⟨1, t, le_rfl, run_succ ht 0, hidle⟩
    · exact absurd hturns hne
  | cons a turns ih =>
    obtain ⟨t, ht, hidle | ⟨-, hbusyt, hresett, hpinst, hturnst⟩⟩ := step_of_flight hbusy hreset hpins
    · exact ⟨1, t, Nat.le_add_left .., run_succ ht 0, hidle⟩
    · obtain ⟨k, u, hk, hu, hidle⟩ := ih t hbusyt hresett hpinst (by rw [hturnst, hturns]; rfl)
      exact ⟨k + 1, u, Nat.succ_le_succ hk, (run_succ ht k).trans hu, hidle⟩

end Sys2Proof.Machine

/-! SUPPORT. The result codes (60_exceptions.md R200 to R209): each command's checks come in one order of priority, INVALID_INPUT,
CAPACITY, CORRUPT_DATA, and the conditions of the first two are those of the obligations, `emptyInput` and `overCapacity`. -/

namespace Sys2Proof.Machine

/-! ### The checks in their order (R202 to R204, R209) -/

theorem eq_zero_of_toNat_eq_zero {v : Word} (h : v.toNat = 0) : v = 0#32 := BitVec.eq_of_toNat_eq h

theorem ne_zero_of_toNat_ne_zero {v : Word} (h : ¬ v.toNat = 0) : v ≠ 0#32 := fun hzero => h (congrArg BitVec.toNat hzero)

/-- INVALID_INPUT comes first (R202). -/
theorem exec_of_emptyInput {i : Instr} {s : State} (h : emptyInput i s) : exec i s = .next (s.raise .invalidInput) := by
  cases i
  case unpackL | encr | decr | encrypt | decrypt => exact if_pos (eq_zero_of_toNat_eq_zero h)
  all_goals exact h.elim

/-- CAPACITY comes second (R204). -/
theorem exec_of_overCapacity {i : Instr} {s : State} (hempty : ¬ emptyInput i s) (h : overCapacity i s) :
    exec i s = .next (s.raise .capacity) := by
  cases i
  case pack | packL | unpack => exact if_pos h
  case unpackL | encr | decr | encrypt | decrypt => exact (if_neg (ne_zero_of_toNat_ne_zero hempty)).trans (if_pos h)
  case nop | keypack | srst => exact h.elim

/-- The embedded length is above the bound of R203. -/
abbrev State.lengthExceeds (s : State) : Prop := 4 * s.wcnt.toNat < (s.wordAt (s.wcnt.toNat - 1)).toNat

/-- A command without an embedded length has no third check. -/
theorem exec_of_noLengthCheck {i : Instr} {s : State} (hempty : ¬ emptyInput i s) (hover : ¬ overCapacity i s)
    (hi : ¬ (i = .unpackL ∨ i = .decrypt)) : ∃ t, exec i s = .next t ∧ t.err = 0#4 := by
  cases i
  case nop | keypack | srst => exact ⟨_, rfl, rfl⟩
  case pack | packL => exact ⟨_, if_neg hover, rfl⟩
  case unpack => exact ⟨_, if_neg hover, by rw [State.finishUnpack_false]; rfl⟩
  case encr | decr => exact ⟨_, (if_neg (ne_zero_of_toNat_ne_zero hempty)).trans (if_neg hover), rfl⟩
  case encrypt => exact ⟨_, exec_encrypt_of_fits (ne_zero_of_toNat_ne_zero hempty) (Nat.le_of_not_gt hover), rfl⟩
  case unpackL => exact absurd (Or.inl rfl) hi
  case decrypt => exact absurd (Or.inr rfl) hi

/-- The unpack writes neither WCNT nor a word below it. -/
theorem State.lengthExceeds_unpackComplete {s : State} (hpos : s.wcnt ≠ 0#32) (hmax : s.wcnt.toNat ≤ Config.maxWmax) (m : Nat) :
    (s.unpackComplete m).lengthExceeds ↔ s.lengthExceeds := by
  have hlast : s.wcnt.toNat - 1 < s.wcnt.toNat := Nat.sub_one_lt fun h => hpos (eq_zero_of_toNat_eq_zero h)
  have hwcnt : (s.unpackComplete m).wcnt = s.wcnt := by simp [State.unpackComplete]
  rw [State.lengthExceeds, hwcnt, ← State.words_getD _ hlast, s.words_unpackComplete m hmax, State.words_getD _ hlast]

/-- The condition of CORRUPT_DATA can be read off afterwards, from WCNT and the last word (R203). -/
theorem State.err_finishUnpack_true {s : State} (hpos : s.wcnt ≠ 0#32) (hmax : s.wcnt.toNat ≤ Config.maxWmax) :
    (s.finishUnpack true).err = if (s.finishUnpack true).lengthExceeds then 2#4 else 0#4 := by
  rw [State.finishUnpack_true hpos]
  split
  · next hlong => exact (if_pos hlong).symm
  · next hbound => exact (if_neg (mt (State.lengthExceeds_unpackComplete hpos hmax _).mp hbound)).symm

/-- UNPACK.L and DECRYPT past their first two checks: an unpack with the length check, of an array that is not empty and fits. -/
theorem exec_of_lengthCheck {i : Instr} {s : State} (hcap : s.capacityInv = true) (hempty : ¬ emptyInput i s)
    (hover : ¬ overCapacity i s) (hi : i = .unpackL ∨ i = .decrypt) :
    ∃ u : State, exec i s = .next (u.finishUnpack true) ∧ u.wcnt ≠ 0#32 ∧ u.wcnt.toNat ≤ Config.maxWmax := by
  have hmax := State.wmax_le_maxWmax hcap
  rcases hi with rfl | rfl
  · have hpos := ne_zero_of_toNat_ne_zero hempty
    have hfit : s.wcnt.toNat ≤ s.wmax := Nat.le_of_not_gt hover
    exact ⟨s, exec_unpackL_of_fits hpos hfit, hpos, hfit.trans hmax⟩
  · have hpos := ne_zero_of_toNat_ne_zero hempty
    have hfit : s.packCount false ≤ s.wmax := Nat.le_of_not_gt hover
    have hcount := State.packMix_wcnt_toNat (s := s) (l := false) (r := decRounds)
    refine ⟨s.packMix false decRounds, facadeCommand_of_fits hpos hfit, ne_zero_of_toNat_ne_zero ?_, hcount.trans_le (hfit.trans hmax)⟩
    rw [hcount]
    exact Nat.ne_of_gt (State.packCount_pos hpos)

/-- Settles O31: the checks in their order; the third can be read off WCNT and the last word afterwards. -/
theorem errorCodeIsTheFirstInPriority : Obligations.ErrorCodeIsTheFirstInPriority := by
  unfold Obligations.ErrorCodeIsTheFirstInPriority
  intro i s hcap
  obtain ⟨t, ht, -⟩ := exec_frame i s
  have hunpack (hempty : ¬ emptyInput i s) (hover : ¬ overCapacity i s) (hi : i = .unpackL ∨ i = .decrypt) :
      t.err = if t.lengthExceeds then 2#4 else 0#4 := by
    obtain ⟨u, hu, hpos, hmax⟩ := exec_of_lengthCheck hcap hempty hover hi
    cases ht.symm.trans hu
    exact State.err_finishUnpack_true hpos hmax
  refine ⟨t, ht, fun hempty => ?_, fun hempty hover => ?_, fun hempty hover hi hlong => ?_, fun hempty hover hi hle => ?_,
    fun hempty hover hi => ?_⟩
  · cases ht.symm.trans (exec_of_emptyInput hempty)
    rfl
  · cases ht.symm.trans (exec_of_overCapacity hempty hover)
    rfl
  · exact (hunpack hempty hover hi).trans (if_pos hlong)
  · exact (hunpack hempty hover hi).trans (if_neg (Nat.not_lt.mpr hle))
  · obtain ⟨u, hu, herr⟩ := exec_of_noLengthCheck hempty hover hi
    cases ht.symm.trans hu
    exact herr

/-! ### Failed commands (R200, R208) -/

/-- The ways a command can fail, with the state it leaves: DECRYPT alone has effects before its last check. -/
inductive FailedCommand (s : State) : Instr → State → Prop
  | invalidInput {i : Instr} (hempty : emptyInput i s) : FailedCommand s i (s.raise .invalidInput)
  | capacity {i : Instr} (hempty : ¬ emptyInput i s) (hover : overCapacity i s) : FailedCommand s i (s.raise .capacity)
  | corruptUnpackL (hpos : s.wcnt ≠ 0#32) (hfit : s.wcnt.toNat ≤ s.wmax) (hlong : s.lengthExceeds) :
      FailedCommand s .unpackL (s.raise .corruptData)
  | corruptDecrypt (hfit : s.packCount false ≤ s.wmax) : FailedCommand s .decrypt ((s.packMix false decRounds).raise .corruptData)

theorem exec_failedCommand {i : Instr} {s t : State} (hcap : s.capacityInv = true) (ht : exec i s = .next t) (herr : t.err ≠ 0#4) :
    FailedCommand s i t := by
  by_cases hempty : emptyInput i s
  · cases ht.symm.trans (exec_of_emptyInput hempty)
    exact .invalidInput hempty
  by_cases hover : overCapacity i s
  · cases ht.symm.trans (exec_of_overCapacity hempty hover)
    exact .capacity hempty hover
  by_cases hi : i = .unpackL ∨ i = .decrypt
  · rcases hi with rfl | rfl
    · have hpos := ne_zero_of_toNat_ne_zero hempty
      have hfit : s.wcnt.toNat ≤ s.wmax := Nat.le_of_not_gt hover
      rw [exec_unpackL_of_fits hpos hfit, State.finishUnpack_true hpos] at ht
      split at ht <;> cases ht
      · next hlong => exact .corruptUnpackL hpos hfit hlong
      · exact absurd rfl herr
    · have hfit : s.packCount false ≤ s.wmax := Nat.le_of_not_gt hover
      rw [exec_decrypt_of_fits hcap (ne_zero_of_toNat_ne_zero hempty) hfit] at ht
      split at ht <;> cases ht
      · exact .corruptDecrypt hfit
      · exact absurd rfl herr
  · obtain ⟨u, hu, hok⟩ := exec_of_noLengthCheck hempty hover hi
    cases ht.symm.trans hu
    exact absurd hok herr

/-- Settles O32: every failure is a `raise`, on the state before the command but for DECRYPT's, whose steps store into WBUF. -/
theorem errorChangesOnlyStatusAndOutlen : Obligations.ErrorChangesOnlyStatusAndOutlen := by
  unfold Obligations.ErrorChangesOnlyStatusAndOutlen
  intro i s t hcap ht herr
  cases exec_failedCommand hcap ht herr with
  | invalidInput | capacity | corruptUnpackL => exact ⟨rfl, fun _ => rfl, fun _ => rfl⟩
  | corruptDecrypt hfit =>
    have hmax := hfit.trans (State.wmax_le_maxWmax hcap)
    refine ⟨rfl, fun j => State.cellAt_packMix_of_outside decRounds_length ?_, fun h => absurd ⟨rfl, rfl⟩ h⟩
    simp only [Buf.base, Config.maxWmax] at *
    omega

/-! The checks of the first two codes depend on WMAX, LEN and WCNT only. -/

theorem emptyInput_congr {i : Instr} {s s' : State} (hlen : s'.len = s.len) (hwcnt : s'.wcnt = s.wcnt) :
    emptyInput i s' ↔ emptyInput i s := by
  cases i <;> simp only [emptyInput, hlen, hwcnt]

theorem overCapacity_congr {i : Instr} {s s' : State} (hwmax : s'.wmax = s.wmax) (hlen : s'.len = s.len) (hwcnt : s'.wcnt = s.wcnt) :
    overCapacity i s' ↔ overCapacity i s := by
  cases i <;> simp only [overCapacity, hwmax, hlen, hwcnt]

/-- UNPACK.L past its checks of WCNT, when the length is above the bound (R116). -/
theorem exec_unpackL_of_lengthExceeds {s : State} (hpos : s.wcnt ≠ 0#32) (hfit : s.wcnt.toNat ≤ s.wmax) (hlong : s.lengthExceeds) :
    exec .unpackL s = .next (s.raise .corruptData) := by
  rw [exec_unpackL_of_fits hpos hfit, State.finishUnpack_true hpos, if_pos hlong]

theorem State.SameInputs.issue {s t : State} (h : s.SameInputs t) (v : Word) : s.SameInputs (t.issue v) := ⟨h.len, h.klen, h.bytes⟩

/-- A state with the same inputs has the same operands of ENCRYPT and DECRYPT, if the input fits the capacity. -/
theorem State.SameInputs.sameFacadeInputs {s t : State} (h : s.SameInputs t) (hcap : s.capacityInv = true) (hwmax : t.wmax = s.wmax)
    (hfit : s.packCount false ≤ s.wmax) : s.SameFacadeInputs t where
  wmax := hwmax
  len := h.len
  input := by
    have hle : s.len.toNat ≤ 4 * s.wmax := (length_le_four_mul_ceil4 _).trans (Nat.mul_le_mul_left 4 hfit)
    rw [State.inputBytes, h.len]
    exact List.map_congr_left fun j hj => h.byteAt_ibuf hcap ((List.mem_range.mp hj).trans_le hle)
  key := by
    have hkbuf : t.keyBytes = s.keyBytes := List.map_congr_left fun j hj => h.byteAt_kbuf (List.mem_range.mp hj)
    rw [hkbuf, h.klen]

/-- Settles O33: a failure leaves what its check reads as it was, and DECRYPT's leaves the inputs from which it computes the
length. -/
theorem failedCommandFailsAgain : Obligations.FailedCommandFailsAgain := by
  unfold Obligations.FailedCommandFailsAgain
  intro i s t u hcap ht herr hu
  cases exec_failedCommand hcap ht herr with
  | invalidInput hempty =>
    cases hu.symm.trans (exec_of_emptyInput ((emptyInput_congr rfl rfl).mpr hempty))
    rfl
  | capacity hempty hover =>
    cases hu.symm.trans (exec_of_overCapacity (mt (emptyInput_congr rfl rfl).mp hempty) ((overCapacity_congr rfl rfl rfl).mpr hover))
    rfl
  | corruptUnpackL hpos hfit hlong =>
    cases hu.symm.trans (exec_unpackL_of_lengthExceeds hpos hfit hlong)
    rfl
  | corruptDecrypt hfit =>
    have hinputs := ((exec_commandEffect (by decide) ht).sameInputs hcap).issue (encode .decrypt)
    have hsame := hinputs.sameFacadeInputs hcap (by simp [State.packMix]) hfit
    obtain ⟨t', u', ht', hu', hresults⟩ := hsame.exec_decrypt_sameResults hcap
    cases ht.symm.trans ht'
    cases hu.symm.trans hu'
    exact hresults.err

end Sys2Proof.Machine

/-! SUPPORT. The platform's moves of RST_N, the machine while RST_N is asserted, and the STATUS read that races with the engine
(70_reset_and_hazards.md R240 to R247). -/

namespace Sys2Proof.Machine

/-! ### A STATUS read during a command (R247) -/

/-- The agent the schedule names moves if it can. -/
theorem State.mover_of_turns_cons {s : State} {a : Agent} {later : List Agent} (h : s.turns = a :: later)
    (hc : s.canMove a = true) : s.mover = some a := by
  simp [State.mover, h, hc]

/-- The one value STATUS has while a command is in flight: the invariant's flight clause says `BUSY = 1, DONE = 0, ERR = 0`. -/
theorem State.statusWord_of_flight {s : State} (hinv : s.inv = true) (hbusy : s.busy = true) : s.statusWord = 0x00000001#32 := by
  obtain ⟨-, hflight, -⟩ := s.inv_iff.mp hinv
  obtain ⟨hdone, herr⟩ := hflight hbusy
  simp [State.statusWord, flagWord, hbusy, hdone, herr]

/-- Settles O47: the schedule's agent can move in either order; the host's read finds STATUS as in flight, and the engine's move
completes the command and touches neither the host's queue nor its replies. -/
theorem statusReadDuringCommandAdmitsBothValues : Obligations.StatusReadDuringCommandAdmitsBothValues := by
  unfold Obligations.StatusReadDuringCommandAdmitsBothValues
  intro s rest later hinv hbusy hreset hhost
  constructor
  · have hcan : s.hostCanMove = true := (State.hostCanMove_iff_of_cons hhost).mpr ⟨hreset, Or.inr rfl⟩
    have hread : s.memRead 0x00C .word = some 0x00000001#32 :=
      (s.memRead_of_regAt .status rfl).trans (congrArg some (State.statusWord_of_flight hinv hbusy))
    obtain ⟨hperform, -⟩ := legalHostAccessIsPerformed { s with turns := .host :: later } 0x00C#18 .word rest
      (State.mover_of_turns_cons rfl hcan)
    exact hperform _ hhost hread
  · have hm : ({ s with turns := .engine :: later } : State).mover = some .engine :=
      State.mover_engine hbusy hreset (Or.inr rfl)
    obtain ⟨t, ht, -, -, -, -, hhostt, hreplies, -, hidle⟩ := engineMove_frame { s with turns := later }
    exact ⟨t, (step_of_mover_engine hm).trans ht, hidle, hhostt, hreplies⟩

/-! ### The assertion and the release of RST_N (R240, R242) -/

theorem step_of_mover_platform {s : State} (h : s.mover = some .platform) : step s = s.nextTurn.platformMove := by
  simp [step, h]

/-- Either event of RST_N is a hardware reset, and they differ in the pin's new level only. -/
theorem State.platformMove_of_pins {s : State} {asserted : Bool} {rest : List PinEvent}
    (h : s.pins = (if asserted then .assertReset else .releaseReset) :: rest) :
    s.platformMove = .next { s.hardwareReset with inReset := asserted, pins := rest } := by
  cases asserted <;> simp [State.platformMove, h]

/-- With no command in flight the host can make any access, unless RST_N is asserted. -/
theorem State.hostCanMove_iff_of_idle {s : State} (hbusy : s.busy = false) :
    s.hostCanMove = true ↔ s.inReset = false ∧ s.host ≠ [] := by
  cases hhost : s.host with
  | nil => simp [State.hostCanMove, hhost]
  | cons op rest => simp [State.hostCanMove_iff_of_cons hhost, hbusy]

/-- Settles O55: the platform's move is a hardware reset, after which no command is in flight. -/
theorem hardwareResetAbandonsTheCommand : Obligations.HardwareResetAbandonsTheCommand := by
  unfold Obligations.HardwareResetAbandonsTheCommand
  intro s rest asserted hm hpins
  have hstep := (step_of_mover_platform hm).trans (State.platformMove_of_pins (s := s.nextTurn) hpins)
  exact ⟨_, hstep, rfl, rfl, State.hostCanMove_iff_of_idle rfl, rfl⟩

/-! ### While RST_N is asserted (R240, I13) -/

theorem State.canMove_host_of_inReset {s : State} (h : s.inReset = true) : s.canMove .host = false := by
  cases hhost : s.host <;> simp [State.canMove, State.hostCanMove, hhost, h]

theorem State.canMove_engine_of_inReset {s : State} (h : s.inReset = true) : s.canMove .engine = false := by
  simp [State.canMove, State.engineCanMove, h]

theorem State.canMove_platform_of_pins_nil {s : State} (h : s.pins = []) : s.canMove .platform = false := by
  simp [State.canMove, State.platformCanMove, h]

/-- An agent that cannot move is not the one that moves. -/
theorem State.mover_ne_of_canMove {s : State} {a : Agent} (h : s.canMove a = false) : s.mover ≠ some a := fun hm =>
  Bool.false_ne_true (h.symm.trans (State.mover_canMove hm))

/-- When no agent can move, a step only uses up its turn (log 5). -/
theorem step_of_canMove_eq_false {s : State} (h : ∀ a, s.canMove a = false) : step s = .next s.nextTurn := by
  cases hm : s.mover with
  | none => simp [step, hm]
  | some a => exact absurd hm (State.mover_ne_of_canMove (h a))

/-- Settles O56: the host cannot move, and with no reset event to come no agent can. -/
theorem nothingIsAnsweredDuringReset : Obligations.NothingIsAnsweredDuringReset := by
  unfold Obligations.NothingIsAnsweredDuringReset
  intro s hreset
  have hnohost := State.canMove_host_of_inReset hreset
  obtain ⟨t, ht, -, hhost, hreplies⟩ := step_frame_of_mover_ne_host (State.mover_ne_of_canMove hnohost)
  refine ⟨t, ht, hhost, hreplies, fun hpins => ?_⟩
  have hnone (a : Agent) : s.canMove a = false := by
    cases a with
    | host => exact hnohost
    | engine => exact State.canMove_engine_of_inReset hreset
    | platform => exact State.canMove_platform_of_pins_nil hpins
  cases ht.symm.trans (step_of_canMove_eq_false hnone)
  rfl

/-! ### Commands on the reset state (R244) -/

/-- With KLEN = 0 every byte of the key counts as zero (R111), whatever KBUF holds. -/
theorem keyWords_zero (kb : List Byte) : keyWords kb 0 = { k0 := 0#32, k1 := 0#32, k2 := 0#32, k3 := 0#32 } := by
  simp [keyWords, packWord_of_length_le]

/-- With LEN = 0 and WCNT = 0, the commands with an INVALID_INPUT check fail it (R202). -/
theorem emptyInput_of_counts_zero {i : Instr} {s : State} (hi : i ∈ [Instr.encrypt, .decrypt, .encr, .decr, .unpackL])
    (hlen : s.len = 0#32) (hwcnt : s.wcnt = 0#32) : emptyInput i s := by
  have hlen' : s.len.toNat = 0 := congrArg BitVec.toNat hlen
  have hwcnt' : s.wcnt.toNat = 0 := congrArg BitVec.toNat hwcnt
  cases i
  case encrypt | decrypt => exact hlen'
  case encr | decr | unpackL => exact hwcnt'
  all_goals exact absurd hi (by decide)

/-- UNPACK of no words completes with no bytes (R115). -/
theorem exec_unpack_of_wcnt_zero {s : State} (h : s.wcnt = 0#32) : exec .unpack s = .next (s.unpackComplete 0) := by
  have hcount : s.wcnt.toNat = 0 := congrArg BitVec.toNat h
  have hexec : exec .unpack s = .next (s.finishUnpack false) := if_neg (by omega)
  rw [hexec, State.finishUnpack_false, hcount]

/-- Settles O58: LEN, WCNT and KLEN are 0, so no byte of a buffer is read and its draw does not matter. -/
theorem commandsOnTheResetState : Obligations.CommandsOnTheResetState := by
  unfold Obligations.CommandsOnTheResetState
  rintro wmax draw s - rfl
  refine ⟨fun i => ?_, ⟨_, rfl, rfl, keyWords_zero _⟩, fun i hi => ?_, ⟨_, exec_unpack_of_wcnt_zero rfl, rfl, rfl⟩⟩
  · obtain ⟨t, ht, -⟩ := exec_frame i { State.reset with wmax := wmax, draw := draw }
    exact ⟨t, ht⟩
  · exact ⟨_, exec_of_emptyInput (emptyInput_of_counts_zero hi rfl rfl), rfl⟩

end Sys2Proof.Machine
